-- ==== Sys2Proof/Word.lean ====
section
/-! DEFINITION. The two word types of the core (00_scope.md R7, R9): an 8-bit data byte and a
16-bit address. -/

namespace Sys2Proof

/-- `u8`: a register other than PC, or one memory cell (00_scope.md R9). -/
abbrev Byte := BitVec 8

/-- `u16`: PC and every bus address (00_scope.md R9). -/
abbrev Addr := BitVec 16

end Sys2Proof
end

