-- ==== Sys2Proof/Syntax.lean ====
section
/-! DEFINITION. The instructions: one constructor per row of spec/opcode_table.json, 39 opcodes of
30_encoding.md R60 and the row of the 217 unrecognised bytes (R62). -/

namespace Sys2Proof

/-- The addressing-mode tags of 30_encoding.md R59. `zpy` is the tag of no opcode. -/
inductive Mode where
  | imm | zp | zpx | zpy | abs | absx | absy | indx | indy | acc | rel | imp
deriving DecidableEq, Repr

/-- The instruction formats of 30_encoding.md R56. -/
inductive Format where
  | op | op8 | op16
deriving DecidableEq, Repr

/-- An instruction with its operands as 30_encoding.md R58 assembles them: `imm8`, `zp8` and `rel8`
are the operand byte itself, `abs16` is the word of the two operand bytes. -/
inductive Instr where
  | ldaImm (imm8 : Byte)
  | ldaZp (zp8 : Byte)
  | ldaZpx (zp8 : Byte)
  | ldaAbs (abs16 : Addr)
  | ldaAbsx (abs16 : Addr)
  | ldaAbsy (abs16 : Addr)
  | ldaIndx (zp8 : Byte)
  | ldaIndy (zp8 : Byte)
  | staZp (zp8 : Byte)
  | staZpx (zp8 : Byte)
  | staAbs (abs16 : Addr)
  | staAbsx (abs16 : Addr)
  | staAbsy (abs16 : Addr)
  | staIndx (zp8 : Byte)
  | staIndy (zp8 : Byte)
  | adcImm (imm8 : Byte)
  | andImm (imm8 : Byte)
  | andZp (zp8 : Byte)
  | andZpx (zp8 : Byte)
  | andAbs (abs16 : Addr)
  | andAbsx (abs16 : Addr)
  | andAbsy (abs16 : Addr)
  | andIndx (zp8 : Byte)
  | andIndy (zp8 : Byte)
  | aslAcc
  | aslZp (zp8 : Byte)
  | aslZpx (zp8 : Byte)
  | aslAbs (abs16 : Addr)
  | bitZp (zp8 : Byte)
  | bitAbs (abs16 : Addr)
  | bpl (rel8 : Byte)
  | bmi (rel8 : Byte)
  | bvc (rel8 : Byte)
  | bvs (rel8 : Byte)
  | bcc (rel8 : Byte)
  | bcs (rel8 : Byte)
  | bne (rel8 : Byte)
  | beq (rel8 : Byte)
  | brk
  /-- Any of the 217 bytes of 30_encoding.md R62; the byte is kept, so that no bit is dropped. -/
  | unrecognised (opcode : Byte)
deriving DecidableEq, Repr

end Sys2Proof
end

