-- ==== Sys2Proof/Machine/Params.lean ====
section
/-! DEFINITION. The default values of the parameters of 00_scope.md R8, and the set of opcode bytes
of 30_encoding.md R60. They are the spec's own decisions (92_eei_decisions.md D1, D2, D3, D5, D6,
D7, D24), so they stand here, where a later repair may mend them; `Config` only names them. -/

namespace Sys2Proof.Machine

/-- `RESET_PC`. UNVERIFIED (D2, log entry 3). -/
def defaultResetPC : Addr := 0x0100

/-- `SP_RESET`. UNVERIFIED (D1, log entry 3): the source's alternative is 0xFF. -/
def defaultSpReset : Byte := 0xFD

/-- `ASL_ZPX_UNINDEXED`. UNVERIFIED (D3, log entry 4). -/
def defaultAslZpxUnindexed : Bool := false

/-- `MAPPED` (20_memory.md R39): no address is unmapped (D24, log entry 7). -/
def defaultMapped (_ : Addr) : Bool := true

/-- `CYCLE_COST`, LDA and STA rows of 40_execution.md R71: opcode, base cost, "+p" mark.
UNVERIFIED in the cells R71 calls decided (D5, log entry 5). -/
def costLoadStore : List (Byte × Nat × Bool) :=
  [(0xA9, 2, false), (0xA5, 3, false), (0xB5, 4, false), (0xAD, 4, false),
   (0xBD, 4, true), (0xB9, 4, true), (0xA1, 6, false), (0xB1, 5, true),
   (0x85, 3, false), (0x95, 4, false), (0x8D, 4, false),
   (0x9D, 4, true), (0x99, 4, true), (0x81, 6, false), (0x91, 5, true)]

/-- `CYCLE_COST`, ADC, AND, ASL and BIT rows of 40_execution.md R71. -/
def costAlu : List (Byte × Nat × Bool) :=
  [(0x69, 2, false),
   (0x29, 2, false), (0x25, 3, false), (0x35, 4, false), (0x2D, 4, false),
   (0x3D, 4, true), (0x39, 4, true), (0x21, 6, false), (0x31, 5, true),
   (0x0A, 2, false), (0x06, 5, false), (0x16, 6, false), (0x0E, 6, false),
   (0x24, 3, false), (0x2C, 4, false)]

/-- `CYCLE_COST`, branch and BRK rows of 40_execution.md R71. The branch extras are no "+p" mark:
44_branch.md R126 gives them. -/
def costControl : List (Byte × Nat × Bool) :=
  [(0x10, 2, false), (0x30, 2, false), (0x50, 2, false), (0x70, 2, false),
   (0x90, 2, false), (0xB0, 2, false), (0xD0, 2, false), (0xF0, 2, false),
   (0x00, 7, false)]

/-- The whole table of 40_execution.md R71 but for its last row. -/
def costTable : List (Byte × Nat × Bool) := costLoadStore ++ costAlu ++ costControl

/-- The row of an opcode; any other byte has base 1 and no mark (40_execution.md R71, last row). -/
def costRow (op : Byte) : Nat × Bool :=
  match costTable.find? (fun r => r.1 == op) with
  | some r => r.2
  | none => (1, false)

/-- `BASE(op)` of 40_execution.md R70. -/
def defaultBaseCost (op : Byte) : Nat := (costRow op).1

/-- Is the row marked "+p" (40_execution.md R71)? -/
def defaultPlusP (op : Byte) : Bool := (costRow op).2

/-- The 39 opcode bytes of 30_encoding.md R60, in its order. PRESUMED by the spec from the real 6502
in all but 0xA9, 0x69 and 0x00 (D6, D7, log entry 6). -/
def recognisedOpcodes : List Byte :=
  [0xA9, 0xA5, 0xB5, 0xAD, 0xBD, 0xB9, 0xA1, 0xB1] ++
  [0x85, 0x95, 0x8D, 0x9D, 0x99, 0x81, 0x91] ++
  [0x69] ++
  [0x29, 0x25, 0x35, 0x2D, 0x3D, 0x39, 0x21, 0x31] ++
  [0x0A, 0x06, 0x16, 0x0E] ++
  [0x24, 0x2C] ++
  [0x10, 0x30, 0x50, 0x70, 0x90, 0xB0, 0xD0, 0xF0] ++
  [0x00]

/-- Is the byte a row of 30_encoding.md R60? -/
def isRecognised (op : Byte) : Bool := recognisedOpcodes.contains op

end Sys2Proof.Machine
end

