-- ==== Sys2Proof/WellFormed.lean ====
section
/-! DEFINITION. Which terms of `Instr` are instructions of the core. Every operand is a whole byte or
word and every value of it is legal (30_encoding.md R57, R58), so the one check is on the byte of an
unrecognised opcode. -/

namespace Sys2Proof

/-- An unrecognised opcode is a byte with no row in 30_encoding.md R60 (R62). -/
def Instr.WellFormed : Instr → Bool
  | .unrecognised opcode => !Machine.isRecognised opcode
  | .ldaImm _ | .ldaZp _ | .ldaZpx _ | .ldaAbs _ | .ldaAbsx _ | .ldaAbsy _ | .ldaIndx _
  | .ldaIndy _ | .staZp _ | .staZpx _ | .staAbs _ | .staAbsx _ | .staAbsy _ | .staIndx _
  | .staIndy _ | .adcImm _ | .andImm _ | .andZp _ | .andZpx _ | .andAbs _ | .andAbsx _
  | .andAbsy _ | .andIndx _ | .andIndy _ | .aslAcc | .aslZp _ | .aslZpx _ | .aslAbs _
  | .bitZp _ | .bitAbs _ | .bpl _ | .bmi _ | .bvc _ | .bvs _ | .bcc _ | .bcs _ | .bne _
  | .beq _ | .brk => true

end Sys2Proof
end

