-- ==== Sys2Proof/Decode.lean ====
section
/-! DEFINITION. The decoder and the encoder (30_encoding.md). The decoder looks the opcode byte up in
the table of R60 and nothing else decides (R61, R66); it is total: every byte list gives an
instruction and the rest, or a named rejection. -/

namespace Sys2Proof

/-- `hi:lo` of 00_scope.md R9: the byte read first, at the lower address, is the low byte
(20_memory.md R42). -/
def wordOf (lo hi : Byte) : Addr := hi ++ lo

/-- Bits [7:0] of a word. -/
def loByte (w : Addr) : Byte := w.extractLsb' 0 8

/-- Bits [15:8] of a word. -/
def hiByte (w : Addr) : Byte := w.extractLsb' 8 8

/-- The format each mode belongs to (30_encoding.md R56, R59). -/
def formatOfMode : Mode → Format
  | .acc | .imp => .op
  | .imm | .zp | .zpx | .zpy | .indx | .indy | .rel => .op8
  | .abs | .absx | .absy => .op16

/-- The length in bytes of a format (30_encoding.md R56). -/
def formatLength : Format → Nat
  | .op => 1
  | .op8 => 2
  | .op16 => 3

/-- A row of the opcode map of 30_encoding.md R60. `build` makes the instruction of the two operand
bytes b1 and b2, of which a shorter format uses fewer (R57, R58). -/
structure OpRow where
  opcode : Byte
  mnemonic : String
  mode : Mode
  build : Byte → Byte → Instr

/-- The LDA rows of 30_encoding.md R60. -/
def rowsLda : List OpRow :=
  [⟨0xA9, "LDA", .imm, fun b1 _ => .ldaImm b1⟩,
   ⟨0xA5, "LDA", .zp, fun b1 _ => .ldaZp b1⟩,
   ⟨0xB5, "LDA", .zpx, fun b1 _ => .ldaZpx b1⟩,
   ⟨0xAD, "LDA", .abs, fun b1 b2 => .ldaAbs (wordOf b1 b2)⟩,
   ⟨0xBD, "LDA", .absx, fun b1 b2 => .ldaAbsx (wordOf b1 b2)⟩,
   ⟨0xB9, "LDA", .absy, fun b1 b2 => .ldaAbsy (wordOf b1 b2)⟩,
   ⟨0xA1, "LDA", .indx, fun b1 _ => .ldaIndx b1⟩,
   ⟨0xB1, "LDA", .indy, fun b1 _ => .ldaIndy b1⟩]

/-- The STA rows of 30_encoding.md R60. -/
def rowsSta : List OpRow :=
  [⟨0x85, "STA", .zp, fun b1 _ => .staZp b1⟩,
   ⟨0x95, "STA", .zpx, fun b1 _ => .staZpx b1⟩,
   ⟨0x8D, "STA", .abs, fun b1 b2 => .staAbs (wordOf b1 b2)⟩,
   ⟨0x9D, "STA", .absx, fun b1 b2 => .staAbsx (wordOf b1 b2)⟩,
   ⟨0x99, "STA", .absy, fun b1 b2 => .staAbsy (wordOf b1 b2)⟩,
   ⟨0x81, "STA", .indx, fun b1 _ => .staIndx b1⟩,
   ⟨0x91, "STA", .indy, fun b1 _ => .staIndy b1⟩]

/-- The ADC and AND rows of 30_encoding.md R60. -/
def rowsAdcAnd : List OpRow :=
  [⟨0x69, "ADC", .imm, fun b1 _ => .adcImm b1⟩,
   ⟨0x29, "AND", .imm, fun b1 _ => .andImm b1⟩,
   ⟨0x25, "AND", .zp, fun b1 _ => .andZp b1⟩,
   ⟨0x35, "AND", .zpx, fun b1 _ => .andZpx b1⟩,
   ⟨0x2D, "AND", .abs, fun b1 b2 => .andAbs (wordOf b1 b2)⟩,
   ⟨0x3D, "AND", .absx, fun b1 b2 => .andAbsx (wordOf b1 b2)⟩,
   ⟨0x39, "AND", .absy, fun b1 b2 => .andAbsy (wordOf b1 b2)⟩,
   ⟨0x21, "AND", .indx, fun b1 _ => .andIndx b1⟩,
   ⟨0x31, "AND", .indy, fun b1 _ => .andIndy b1⟩]

/-- The ASL and BIT rows of 30_encoding.md R60. -/
def rowsAslBit : List OpRow :=
  [⟨0x0A, "ASL", .acc, fun _ _ => .aslAcc⟩,
   ⟨0x06, "ASL", .zp, fun b1 _ => .aslZp b1⟩,
   ⟨0x16, "ASL", .zpx, fun b1 _ => .aslZpx b1⟩,
   ⟨0x0E, "ASL", .abs, fun b1 b2 => .aslAbs (wordOf b1 b2)⟩,
   ⟨0x24, "BIT", .zp, fun b1 _ => .bitZp b1⟩,
   ⟨0x2C, "BIT", .abs, fun b1 b2 => .bitAbs (wordOf b1 b2)⟩]

/-- The branch rows and the BRK row of 30_encoding.md R60. -/
def rowsControl : List OpRow :=
  [⟨0x10, "BPL", .rel, fun b1 _ => .bpl b1⟩,
   ⟨0x30, "BMI", .rel, fun b1 _ => .bmi b1⟩,
   ⟨0x50, "BVC", .rel, fun b1 _ => .bvc b1⟩,
   ⟨0x70, "BVS", .rel, fun b1 _ => .bvs b1⟩,
   ⟨0x90, "BCC", .rel, fun b1 _ => .bcc b1⟩,
   ⟨0xB0, "BCS", .rel, fun b1 _ => .bcs b1⟩,
   ⟨0xD0, "BNE", .rel, fun b1 _ => .bne b1⟩,
   ⟨0xF0, "BEQ", .rel, fun b1 _ => .beq b1⟩,
   ⟨0x00, "BRK", .imp, fun _ _ => .brk⟩]

/-- The opcode map of 30_encoding.md R60: exactly 39 rows. -/
def opcodeTable : List OpRow := rowsLda ++ rowsSta ++ rowsAdcAnd ++ rowsAslBit ++ rowsControl

/-- The row of an opcode byte, if it has one (30_encoding.md R61). -/
def findRow (op : Byte) : Option OpRow := opcodeTable.find? (fun r => r.opcode == op)

/-- The format the opcode byte alone decides; an unrecognised opcode is one byte long
(30_encoding.md R56; the length 1 is the spec's decision D13, log entry 14). -/
def formatOf (op : Byte) : Format :=
  match findRow op with
  | some r => formatOfMode r.mode
  | none => .op

/-- The instruction of an opcode byte and its operand bytes (30_encoding.md R58, R60, R62). -/
def instrOf (op b1 b2 : Byte) : Instr :=
  match findRow op with
  | some r => r.build b1 b2
  | none => .unrecognised op

/-- Why a byte list is no instruction: it ends too early. No opcode byte is rejected
(30_encoding.md R61: the decoder is total on all 256 byte values). -/
inductive DecodeError where
  /-- There is no opcode byte. -/
  | noOpcode
  /-- The list ends before the operand bytes the opcode asks for. -/
  | missingOperand (opcode : Byte)
deriving DecidableEq, Repr

/-- What decoding a byte list gives: an instruction and the bytes after it, or a named rejection. -/
inductive DecodeResult where
  | ok (i : Instr) (rest : List Byte)
  | rejected (e : DecodeError)
deriving DecidableEq, Repr

/-- Decode the instruction at the head of a byte list; the rest of the list comes back. -/
def decode : List Byte → DecodeResult
  | [] => .rejected .noOpcode
  | op :: rest =>
    match formatOf op, rest with
    | .op, rest => .ok (instrOf op 0 0) rest
    | .op8, b1 :: rest => .ok (instrOf op b1 0) rest
    | .op16, b1 :: b2 :: rest => .ok (instrOf op b1 b2) rest
    | .op8, [] => .rejected (.missingOperand op)
    | .op16, _ => .rejected (.missingOperand op)

/-- The words of a format OP8 instruction (30_encoding.md R56). -/
def encode8 (op b1 : Byte) : List Byte := [op, b1]

/-- The words of a format OP16 instruction, low byte first (30_encoding.md R56, R58). -/
def encode16 (op : Byte) (w : Addr) : List Byte := [op, loByte w, hiByte w]

/-- The bytes of an instruction, written from 30_encoding.md R56, R58 and R60. -/
def encode : Instr → List Byte
  | .ldaImm v => encode8 0xA9 v
  | .ldaZp z => encode8 0xA5 z
  | .ldaZpx z => encode8 0xB5 z
  | .ldaAbs w => encode16 0xAD w
  | .ldaAbsx w => encode16 0xBD w
  | .ldaAbsy w => encode16 0xB9 w
  | .ldaIndx z => encode8 0xA1 z
  | .ldaIndy z => encode8 0xB1 z
  | .staZp z => encode8 0x85 z
  | .staZpx z => encode8 0x95 z
  | .staAbs w => encode16 0x8D w
  | .staAbsx w => encode16 0x9D w
  | .staAbsy w => encode16 0x99 w
  | .staIndx z => encode8 0x81 z
  | .staIndy z => encode8 0x91 z
  | .adcImm v => encode8 0x69 v
  | .andImm v => encode8 0x29 v
  | .andZp z => encode8 0x25 z
  | .andZpx z => encode8 0x35 z
  | .andAbs w => encode16 0x2D w
  | .andAbsx w => encode16 0x3D w
  | .andAbsy w => encode16 0x39 w
  | .andIndx z => encode8 0x21 z
  | .andIndy z => encode8 0x31 z
  | .aslAcc => [0x0A]
  | .aslZp z => encode8 0x06 z
  | .aslZpx z => encode8 0x16 z
  | .aslAbs w => encode16 0x0E w
  | .bitZp z => encode8 0x24 z
  | .bitAbs w => encode16 0x2C w
  | .bpl r => encode8 0x10 r
  | .bmi r => encode8 0x30 r
  | .bvc r => encode8 0x50 r
  | .bvs r => encode8 0x70 r
  | .bcc r => encode8 0x90 r
  | .bcs r => encode8 0xB0 r
  | .bne r => encode8 0xD0 r
  | .beq r => encode8 0xF0 r
  | .brk => [0x00]
  | .unrecognised op => [op]

/-- The addressing mode of an instruction (30_encoding.md R60, R62). -/
def modeOf : Instr → Mode
  | .ldaImm _ | .adcImm _ | .andImm _ => .imm
  | .ldaZp _ | .staZp _ | .andZp _ | .aslZp _ | .bitZp _ => .zp
  | .ldaZpx _ | .staZpx _ | .andZpx _ | .aslZpx _ => .zpx
  | .ldaAbs _ | .staAbs _ | .andAbs _ | .aslAbs _ | .bitAbs _ => .abs
  | .ldaAbsx _ | .staAbsx _ | .andAbsx _ => .absx
  | .ldaAbsy _ | .staAbsy _ | .andAbsy _ => .absy
  | .ldaIndx _ | .staIndx _ | .andIndx _ => .indx
  | .ldaIndy _ | .staIndy _ | .andIndy _ => .indy
  | .aslAcc => .acc
  | .bpl _ | .bmi _ | .bvc _ | .bvs _ | .bcc _ | .bcs _ | .bne _ | .beq _ => .rel
  | .brk | .unrecognised _ => .imp

/-- The length of an instruction in bytes (30_encoding.md R56). -/
def instrLength (i : Instr) : Nat := formatLength (formatOfMode (modeOf i))

/-- The three bytes of a number whose bit 0 is the least significant bit of the first byte, the bits
from `nbits` on taken as 0. -/
def tableBytes (nbits w : Nat) : List Byte :=
  let v := w % 2 ^ nbits
  [BitVec.ofNat 8 v, BitVec.ofNat 8 (v / 256), BitVec.ofNat 8 (v / 65536)]

/-- The instruction the decoder reads from the bits of a row of spec/opcode_table.json. -/
def decodeTableWord (nbits w : Nat) : Option Instr :=
  match decode (tableBytes nbits w) with
  | .ok i _ => some i
  | .rejected _ => none

end Sys2Proof
end

