-- ==== Sys2Proof/Config.lean ====
section
/-! DEFINITION. What is fixed for one machine: the named parameters of 00_scope.md R8, their
defaults, and the values the spec leaves open before the first reset. -/

namespace Sys2Proof

/-- The named parameters a model takes as arguments (00_scope.md R8). -/
structure Config where
  /-- `RESET_PC`: where `reset()` with no start address sets PC. -/
  resetPC : Addr
  /-- `SP_RESET`: the value of SP after reset. -/
  spReset : Byte
  /-- `ASL_ZPX_UNINDEXED`: does ASL zp,X ignore X (43_alu.md R120)? -/
  aslZpxUnindexed : Bool
  /-- `CYCLE_COST`, the base costs (40_execution.md R71). -/
  baseCost : Byte → Nat
  /-- `CYCLE_COST`, the "+p" marks (40_execution.md R71). -/
  plusP : Byte → Bool
  /-- `MAPPED`: is the address mapped (20_memory.md R39)? -/
  mapped : Addr → Bool

/-- The machine at the defaults of 00_scope.md R8: the one `step` runs. -/
def Config.default : Config where
  resetPC := Machine.defaultResetPC
  spReset := Machine.defaultSpReset
  aslZpxUnindexed := Machine.defaultAslZpxUnindexed
  baseCost := Machine.defaultBaseCost
  plusP := Machine.defaultPlusP
  mapped := Machine.defaultMapped

/-- Every base cost is at least 1, as in the table of 40_execution.md R71: what
60_exceptions.md R150 needs for an execute call to end. -/
def Config.CostsPositive (c : Config) : Prop := ∀ op, 1 ≤ c.baseCost op

/-- The registers' content before the first reset, which 10_state.md R36 leaves unspecified: free
values, with no body. They are never in force after a reset (log entry 8). -/
opaque Config.powerOnA : Byte
/-- X before the first reset: a free value (10_state.md R36). -/
opaque Config.powerOnX : Byte
/-- Y before the first reset: a free value (10_state.md R36). -/
opaque Config.powerOnY : Byte
/-- SP before the first reset: a free value (10_state.md R36). -/
opaque Config.powerOnSP : Byte
/-- P before the first reset: a free value (10_state.md R36). -/
opaque Config.powerOnP : Byte
/-- PC before the first reset: a free value (10_state.md R36). -/
opaque Config.powerOnPC : Addr

end Sys2Proof
end

