-- ==== Sys2Proof/Machine/State.lean ====
section
/-! DEFINITION. The core's state as plain data (10_state.md R16: "The core's state is exactly the
following. Nothing else is state."), the reasons to stop, and the state right after reset. -/

namespace Sys2Proof.Machine

/-- The flat memory (20_memory.md R38) as a list of address and byte pairs in one canonical form:
addresses strictly rising, none above 0xFFFF, no byte 0x00. An unlisted address reads 0x00, the
content after reset (R38; log entry 16). -/
abbrev Memory := List Host.Cell

/-- The source's state machine (10_state.md R34). -/
inductive RunState where
  /-- Between execute calls. -/
  | idle
  /-- Inside an execute call. -/
  | running
deriving DecidableEq, Repr

/-- Everything 10_state.md R16 lists. -/
structure State where
  /-- The accumulator (R17). -/
  a : Byte
  /-- Index register X (R18). -/
  x : Byte
  /-- Index register Y (R19). -/
  y : Byte
  /-- The program counter (R21). -/
  pc : Addr
  /-- The stack pointer, an offset into page 1 (R22). -/
  sp : Byte
  /-- The stored status flags N V U B D I Z C, bit 7 first (R23). It is read through `readP` and
  `readFlag`, since U always reads 1 (R29). -/
  p : Byte
  /-- The memory (R35). -/
  mem : Memory
  /-- The execution state (R34). -/
  run : RunState
  /-- The cycle budget left, meaningful while Running and at the return of an execute call (R34). -/
  remaining : Int
deriving DecidableEq, Repr

/-- No constructor: "every operation is total" (60_exceptions.md R138), so nothing raises a fault and
no state has a fault outcome. Safe: the type allows no stop the core does not have. -/
inductive Fault where
deriving DecidableEq, Repr

/-- The reasons a move is refused. The core itself refuses nothing (60_exceptions.md R138). -/
inductive Refusal where
  /-- An instruction without a meaning yet. Raised by no arm of `exec`: all 40 have one. Safe. -/
  | notModelled (mnemonic : String)
  /-- Raised by `hostOp` for an execute call before the first reset: "refuses an execute call before
  the first reset" (70_reset_and_hazards.md R156, 93_implementation_defined.md I22). Safe. -/
  | executeBeforeReset
  /-- Raised by `hostOp` for any host operation while Running: "A model gives such a call no move"
  (70_reset_and_hazards.md R159, 93_implementation_defined.md I23). Unsafe, as R159 says itself: a
  host that did it would make the model lack a behaviour the system has (log entry 9). -/
  | hostOpWhileRunning
deriving DecidableEq, Repr

/-- What a meaning answers. -/
abbrev Result := Host.Outcome State Fault Refusal

/-- The state `reset(start)` leaves (70_reset_and_hazards.md R151, 10_state.md R36): every field is
written, and memory lists nothing, so every address reads 0x00. -/
def State.resetAt (c : Config) (start : Addr) : State where
  a := 0x00
  x := 0x00
  y := 0x00
  pc := start
  sp := c.spReset
  p := 0x24
  mem := []
  run := .idle
  -- DESIGN CHOICE (log entry 1): the spec gives no value here, and nothing reads it before an
  -- execute call has set it.
  remaining := 0

/-- The machine right after `reset()` with no start address, at the defaults (10_state.md R36). -/
def State.reset : State := State.resetAt Config.default Config.default.resetPC

end Sys2Proof.Machine
end

