-- ==== Sys2Proof/Machine/Flags.lean ====
section
/-! DEFINITION. The status register P: its layout, the one helper all flag writes go through, and
every flag computation of the spec (10_state.md §5, 42_load_store.md R93, 43_alu.md). -/

namespace Sys2Proof.Machine

/-- The eight flags of P (10_state.md R23). -/
inductive Flag where
  | c | z | i | d | b | u | v | n
deriving DecidableEq, Repr

/-- The bit of P each flag is (10_state.md R23). -/
def flagIndex : Flag → Nat
  | .c => 0
  | .z => 1
  | .i => 2
  | .d => 3
  | .b => 4
  | .u => 5
  | .v => 6
  | .n => 7

/-- The mask of a flag (10_state.md R23). -/
def flagMask (f : Flag) : Byte := 1#8 <<< flagIndex f

/-- `P.f <- b` alone. -/
def putFlag (f : Flag) (b : Bool) (p : Byte) : Byte :=
  if b then p ||| flagMask f else p &&& ~~~flagMask f

/-- The stored bit of a flag. -/
def storedFlag (f : Flag) (p : Byte) : Bool := p.getLsbD (flagIndex f)

/-- `SetFlag(f, b)`: every flag write sets U as well (10_state.md R32). -/
def setFlag (f : Flag) (b : Bool) (p : Byte) : Byte := putFlag .u true (putFlag f b p)

/-- `ToggleFlag(f)` (10_state.md R32). -/
def toggleFlag (f : Flag) (p : Byte) : Byte := putFlag .u true (putFlag f (!storedFlag f p) p)

/-- P as anything reads it: U always reads 1 (10_state.md R20, R29; log entry 10). -/
def readP (s : State) : Byte := s.p ||| flagMask .u

/-- `P.f` as an instruction or the host reads it. -/
def readFlag (f : Flag) (s : State) : Bool := (readP s).getLsbD (flagIndex f)

/-- Bit 7 of a byte (00_scope.md R10). -/
def bit7 (v : Byte) : Bool := v.getLsbD 7

/-- Bit 6 of a byte (00_scope.md R10). -/
def bit6 (v : Byte) : Bool := v.getLsbD 6

/-- `SetZN(v)` (42_load_store.md R93). -/
def setZN (v : Byte) (p : Byte) : Byte := setFlag .n (bit7 v) (setFlag .z (v == 0x00) p)

/-- The exact 9-bit sum of ADC (43_alu.md R109). -/
def adcSum (a v : Byte) (carry : Bool) : Nat := a.toNat + v.toNat + carry.toNat

/-- `r & 0xFF` of ADC (43_alu.md R109). -/
def adcResult (a v : Byte) (carry : Bool) : Byte := BitVec.ofNat 8 (adcSum a v carry)

/-- The overflow test of ADC, `((A ^ r) & (v ^ r) & 0x80) != 0` (43_alu.md R109); the mask leaves bit 7
alone, so the low byte of r serves. -/
def adcOverflow (a v r : Byte) : Bool := ((a ^^^ r) &&& (v ^^^ r) &&& 0x80) != 0

/-- The flags of ADC, in the order of 43_alu.md R109; `a` is the old A. -/
def adcFlags (a v : Byte) (carry : Bool) (p : Byte) : Byte :=
  setFlag .v (adcOverflow a v (adcResult a v carry))
    (setFlag .n (bit7 (adcResult a v carry))
      (setFlag .z (adcResult a v carry == 0x00)
        (setFlag .c (decide (0xFF < adcSum a v carry)) p)))

/-- `s & 0xFF` of ASL, where `s <- t * 2` has 9 bits (43_alu.md R118). -/
def aslResult (t : Byte) : Byte := BitVec.ofNat 8 (t.toNat * 2)

/-- `s[8]` of ASL (43_alu.md R118). -/
def aslCarry (t : Byte) : Bool := (t.toNat * 2).testBit 8

/-- The flags of ASL: C from bit 8, then Z and N from the stored byte (43_alu.md R118). -/
def aslFlags (t : Byte) (p : Byte) : Byte := setZN (aslResult t) (setFlag .c (aslCarry t) p)

/-- The flags of BIT: Z from `A & m`, N and V from the memory operand (43_alu.md R122). -/
def bitFlags (a m : Byte) (p : Byte) : Byte :=
  setFlag .v (bit6 m) (setFlag .n (bit7 m) (setFlag .z ((a &&& m) == 0x00) p))

end Sys2Proof.Machine
end

