-- ==== Sys2Proof/Machine/Ops.lean ====
section
/-! DEFINITION. The named operations over memory and registers: the memory, the Bus, fetch, the
stack, the cycle cost, the trap entry of BRK, and one iteration of the execute loop. -/

namespace Sys2Proof.Machine

/-! ### The memory (20_memory.md §2) -/

/-- Are the addresses strictly rising and above `lo`, none above 0xFFFF, no byte 0x00? -/
def Memory.wfFrom : Nat → Memory → Bool
  | _, [] => true
  | lo, (a, v) :: m => decide (lo ≤ a) && decide (a < 65536) && (v != 0x00) && Memory.wfFrom (a + 1) m

/-- The canonical form: equal memories are equal lists. -/
def Memory.wf (m : Memory) : Bool := Memory.wfFrom 0 m

/-- `Mem.read(a)`: an unlisted address reads 0x00 (20_memory.md R38). -/
def Memory.read : Memory → Nat → Byte
  | [], _ => 0x00
  | (b, w) :: m, a => if a = b then w else Memory.read m a

/-- The memory without any entry for `a`. -/
def Memory.erase : Memory → Nat → Memory
  | [], _ => []
  | (b, w) :: m, a => if a = b then Memory.erase m a else (b, w) :: Memory.erase m a

/-- Put an entry in its place among rising addresses. -/
def Memory.insert : Memory → Nat → Byte → Memory
  | [], a, v => [(a, v)]
  | (b, w) :: m, a, v => if a < b then (a, v) :: (b, w) :: m else (b, w) :: Memory.insert m a v

/-- `Mem.write(a, v)` (20_memory.md R38); writing 0x00 removes the entry. -/
def Memory.write (m : Memory) (a : Nat) (v : Byte) : Memory :=
  if v = 0x00 then Memory.erase m a else Memory.insert (Memory.erase m a) a v

/-! ### The Bus (20_memory.md §3): the only path to memory -/

/-- `MemRead(a, 1)` (20_memory.md R39). -/
def busRead (c : Config) (m : Memory) (a : Addr) : Byte :=
  if c.mapped a then Memory.read m a.toNat else 0x00

/-- `MemWrite(a, 1, v)` (20_memory.md R39). -/
def busWrite (c : Config) (m : Memory) (a : Addr) (v : Byte) : Memory :=
  if c.mapped a then Memory.write m a.toNat v else m

/-- `MemRead` by the processor (20_memory.md R40). -/
def memRead (c : Config) (a : Addr) (s : State) : Byte := busRead c s.mem a

/-- `MemWrite` by the processor (20_memory.md R40). -/
def memWrite (c : Config) (a : Addr) (v : Byte) (s : State) : State :=
  { s with mem := busWrite c s.mem a v }

/-! ### Fetch (41_addressing.md §1) -/

/-- `fetch_byte()` (41_addressing.md R77); PC wraps at 0xFFFF (D11, log entry 15). -/
def fetchByte (c : Config) (s : State) : Byte × State :=
  (memRead c s.pc s, { s with pc := s.pc + 1 })

/-- `fetch_word()`: low byte first (41_addressing.md R78). -/
def fetchWord (c : Config) (s : State) : Addr × State :=
  let (lo, s1) := fetchByte c s
  let (hi, s2) := fetchByte c s1
  (wordOf lo hi, s2)

/-- Fetch one whole instruction: the opcode, then as many operand bytes as it asks for
(40_execution.md R68, 30_encoding.md R56). PC ends at the next sequential instruction. All bytes of an
instruction are fetched before it writes anything (20_memory.md R50; log entry 17). -/
def fetchInstr (c : Config) (s : State) : Instr × State :=
  let (op, s1) := fetchByte c s
  match formatOf op with
  | .op => (instrOf op 0 0, s1)
  | .op8 =>
    let (b1, s2) := fetchByte c s1
    (instrOf op b1 0, s2)
  | .op16 =>
    let (w, s2) := fetchWord c s1
    (instrOf op (loByte w) (hiByte w), s2)

/-! ### The stack (20_memory.md §7) -/

/-- The address of the stack byte at `sp`: always in page 1 (20_memory.md R52). -/
def stackAddr (sp : Byte) : Addr := 0x0100 + sp.zeroExtend 16

/-- `push(b)`: write, then decrement (20_memory.md R53). -/
def push (c : Config) (b : Byte) (s : State) : State :=
  let s1 := memWrite c (stackAddr s.sp) b s
  { s1 with sp := s1.sp - 1 }

/-- `pop()`: increment, then read (20_memory.md R54). No instruction uses it (60_exceptions.md R142: there
is no trap return); it stands for the LIFO law of 20_memory.md R55. -/
def pop (c : Config) (s : State) : Byte × State :=
  let s1 := { s with sp := s.sp + 1 }
  (memRead c (stackAddr s1.sp) s1, s1)

/-! ### The cycle cost (40_execution.md §2) -/

/-- Lower the budget by a cost (40_execution.md R67). -/
def charge (n : Nat) (s : State) : State := { s with remaining := s.remaining - n }

/-- `BASE(op)`, and 1 more if the row is marked "+p" and the mode's page-cross test holds
(40_execution.md R70). -/
def cost (c : Config) (op : Byte) (crossed : Bool) : Nat :=
  c.baseCost op + (c.plusP op && crossed).toNat

/-! ### Trap entry (60_exceptions.md R141) -/

/-- The word at the fixed vector 0xFFFE (low) and 0xFFFF (high) (45_system.md R135). -/
def readVector (c : Config) (s : State) : Addr :=
  wordOf (memRead c 0xFFFE s) (memRead c 0xFFFF s)

/-- The entry sequence of BRK, the core's only trap (45_system.md R135, 60_exceptions.md R141), from
the state after the opcode fetch: PC is the BRK address + 1. The pushed return address is PC + 2
(D22, log entry 13). There is no return from it beside this (60_exceptions.md R142). -/
def enterBreak (c : Config) (s : State) : State :=
  let ret := s.pc + 2
  let s1 := push c (hiByte ret) s
  let s2 := push c (loByte ret) s1
  let s3 := { s2 with p := setFlag .b true s2.p }
  let s4 := push c (readP s3) s3
  let s5 := { s4 with p := setFlag .b false s4.p }
  let s6 := { s5 with p := setFlag .i true s5.p }
  { s6 with pc := readVector c s6 }

/-! ### The execute loop (40_execution.md §1) -/

/-- Enter an execute call (40_execution.md R67): Running with the whole budget, or Idle at once when the
loop's first test fails. -/
def beginExecute (budget : Byte) (s : State) : State :=
  { s with remaining := budget.toNat, run := if budget.toNat = 0 then .idle else .running }

/-- The loop's test after an instruction: "returns to Idle when the remaining cycle budget reaches zero or
below" (10_state.md R34, 40_execution.md R67). -/
def settle (s : State) : State := if s.remaining ≤ 0 then { s with run := .idle } else s

/-- `settle` on what a meaning answers. -/
def settleResult : Result → Result
  | .next s => .next (settle s)
  | .fault r => .fault r
  | .refused r => .refused r

/-- One iteration of the execute loop (40_execution.md R67, R68), for a meaning `ex` of the instructions.
While Idle nothing moves: "Only an execute call wakes the core from Idle. All state survives Idle
unchanged" (60_exceptions.md R149; log entry 2). -/
def loopIteration (c : Config) (ex : Instr → State → Result) (s : State) : Result :=
  match s.run with
  | .idle => .next s
  | .running =>
    if 0 < s.remaining then
      settleResult (ex (fetchInstr c s).1 (fetchInstr c s).2)
    else .next { s with run := .idle }

/-- Run a step until the core is Idle, at most `n` times. -/
def runToIdle (st : State → Result) : Nat → State → Result
  | 0, s => .next s
  | n + 1, s =>
    match s.run with
    | .idle => .next s
    | .running =>
      match st s with
      | .next t => runToIdle st n t
      | .fault r => .fault r
      | .refused r => .refused r

/-! ### Placing an instruction where the next step fetches it -/

/-- Store bytes at `a` and up, the address wrapping at 0xFFFF as PC does. -/
def storeBytes (c : Config) : Addr → List Byte → Memory → Memory
  | _, [], m => m
  | a, b :: bs, m => storeBytes c (a + 1) bs (busWrite c m a b)

/-- Be inside an execute call with budget left: as it is if it already is, else an execute call with
the largest budget is entered (log entry 2). -/
def wake (s : State) : State :=
  match s.run with
  | .running => if 0 < s.remaining then s else beginExecute 0xFF s
  | .idle => beginExecute 0xFF s

end Sys2Proof.Machine
end

