-- ==== Sys2Proof/Machine/Operands.lean ====
section
/-! DEFINITION. The addressing modes (41_addressing.md §2, §3), every one of them, on an instruction
whose operand bytes have been fetched: PC is at the next sequential instruction. Immediate (R79) is the
operand byte itself, Accumulator (R88) is register A and Implied (R90) is nothing, so they need no
function. -/

namespace Sys2Proof.Machine

/-- What a memory mode yields: the effective address and the page-cross flag. -/
structure Resolved where
  addr : Addr
  crossed : Bool
deriving DecidableEq, Repr

/-- `zext_16` (00_scope.md R10). -/
def zext16 (v : Byte) : Addr := v.zeroExtend 16

/-- `sext_16` (00_scope.md R10). -/
def sext16 (v : Byte) : Addr := v.signExtend 16

/-- `PageCross(base, addr)` (41_addressing.md R91). -/
def pageCross (base addr : Addr) : Bool := (addr &&& 0xFF00) != (base &&& 0xFF00)

/-- `ReadZPWord(p)`: the high byte's address wraps within page 0 (41_addressing.md R92). -/
def readZPWord (c : Config) (p : Byte) (s : State) : Addr :=
  wordOf (memRead c (zext16 p) s) (memRead c (zext16 (p + 1)) s)

/-- Index a 16-bit base by a register: a 16-bit sum that wraps (41_addressing.md R84; D11, log entry 15). -/
def indexed (base : Addr) (index : Byte) : Resolved :=
  ⟨base + zext16 index, pageCross base (base + zext16 index)⟩

/-- Zero Page (41_addressing.md R80). -/
def eaZp (b1 : Byte) : Resolved := ⟨zext16 b1, false⟩

/-- Zero Page,X: the sum wraps within the zero page (41_addressing.md R81). -/
def eaZpx (b1 : Byte) (s : State) : Resolved := ⟨zext16 (b1 + s.x), false⟩

/-- Zero Page,Y (41_addressing.md R82); no opcode uses it. -/
def eaZpy (b1 : Byte) (s : State) : Resolved := ⟨zext16 (b1 + s.y), false⟩

/-- Absolute (41_addressing.md R83). -/
def eaAbs (abs16 : Addr) : Resolved := ⟨abs16, false⟩

/-- Absolute,X (41_addressing.md R84). -/
def eaAbsx (abs16 : Addr) (s : State) : Resolved := indexed abs16 s.x

/-- Absolute,Y (41_addressing.md R85). -/
def eaAbsy (abs16 : Addr) (s : State) : Resolved := indexed abs16 s.y

/-- Indexed Indirect (X) (41_addressing.md R86). -/
def eaIndx (c : Config) (b1 : Byte) (s : State) : Resolved := ⟨readZPWord c (b1 + s.x) s, false⟩

/-- Indirect Indexed (Y) (41_addressing.md R87). -/
def eaIndy (c : Config) (b1 : Byte) (s : State) : Resolved := indexed (readZPWord c b1 s) s.y

/-- The address ASL zp,X shifts: Zero Page,X, or the unindexed byte under `ASL_ZPX_UNINDEXED`
(43_alu.md R120; D3, log entry 4). -/
def eaAslZpx (c : Config) (b1 : Byte) (s : State) : Resolved :=
  if c.aslZpxUnindexed then eaZp b1 else eaZpx b1 s

/-- Relative: the offset counts from the PC after the 2-byte instruction (41_addressing.md R89). -/
def relTarget (rel8 : Byte) (s : State) : Addr := s.pc + sext16 rel8

end Sys2Proof.Machine
end

