-- ==== Sys2Proof/Machine/Alu.lean ====
section
/-! DEFINITION. ADC, AND, ASL and BIT (43_alu.md). Each meaning starts after the instruction's bytes
have been fetched; `c` are the parameters, and the `exec` forms are at the defaults. -/

namespace Sys2Proof.Machine

/-- `A + v + P.C` into A, with C, Z, N and V (43_alu.md R109). Binary whatever P.D holds (D12, log
entry 18). -/
def addWithCarry (v : Byte) (s : State) : State :=
  { s with a := adcResult s.a v (readFlag .c s), p := adcFlags s.a v (readFlag .c s) s.p }

/-- `A <- A & v; SetZN(A)` (43_alu.md R110). -/
def andA (v : Byte) (s : State) : State := { s with a := s.a &&& v, p := setZN (s.a &&& v) s.p }

/-- AND with the byte at a resolved address (43_alu.md R110). -/
def andFrom (c : Config) (op : Byte) (r : Resolved) (s : State) : State :=
  charge (cost c op r.crossed) (andA (memRead c r.addr s) s)

/-- ASL on the byte at a resolved address: one read, then one write of the same address
(43_alu.md R118, R119). -/
def shiftAt (c : Config) (op : Byte) (r : Resolved) (s : State) : State :=
  let t := memRead c r.addr s
  charge (cost c op r.crossed) { memWrite c r.addr (aslResult t) s with p := aslFlags t s.p }

/-- BIT with the byte at a resolved address (43_alu.md R122). -/
def bitTestAt (c : Config) (op : Byte) (r : Resolved) (s : State) : State :=
  charge (cost c op r.crossed) { s with p := bitFlags s.a (memRead c r.addr s) s.p }

/-- ADC #imm (43_alu.md R109). -/
def adcImmWith (c : Config) (imm8 : Byte) (s : State) : State :=
  charge (cost c 0x69 false) (addWithCarry imm8 s)

/-- AND #imm (43_alu.md R110). -/
def andImmWith (c : Config) (imm8 : Byte) (s : State) : State := charge (cost c 0x29 false) (andA imm8 s)
/-- AND zp (43_alu.md R111). -/
def andZpWith (c : Config) (zp8 : Byte) (s : State) : State := andFrom c 0x25 (eaZp zp8) s
/-- AND zp,X (43_alu.md R112). -/
def andZpxWith (c : Config) (zp8 : Byte) (s : State) : State := andFrom c 0x35 (eaZpx zp8 s) s
/-- AND abs (43_alu.md R113). -/
def andAbsWith (c : Config) (abs16 : Addr) (s : State) : State := andFrom c 0x2D (eaAbs abs16) s
/-- AND abs,X (43_alu.md R114). -/
def andAbsxWith (c : Config) (abs16 : Addr) (s : State) : State := andFrom c 0x3D (eaAbsx abs16 s) s
/-- AND abs,Y (43_alu.md R115). -/
def andAbsyWith (c : Config) (abs16 : Addr) (s : State) : State := andFrom c 0x39 (eaAbsy abs16 s) s
/-- AND (zp,X) (43_alu.md R116). -/
def andIndxWith (c : Config) (zp8 : Byte) (s : State) : State := andFrom c 0x21 (eaIndx c zp8 s) s
/-- AND (zp),Y (43_alu.md R117). -/
def andIndyWith (c : Config) (zp8 : Byte) (s : State) : State := andFrom c 0x31 (eaIndy c zp8 s) s

/-- ASL A (43_alu.md R118). -/
def aslAccWith (c : Config) (s : State) : State :=
  charge (cost c 0x0A false) { s with a := aslResult s.a, p := aslFlags s.a s.p }
/-- ASL zp (43_alu.md R119). -/
def aslZpWith (c : Config) (zp8 : Byte) (s : State) : State := shiftAt c 0x06 (eaZp zp8) s
/-- ASL zp,X (43_alu.md R120). -/
def aslZpxWith (c : Config) (zp8 : Byte) (s : State) : State := shiftAt c 0x16 (eaAslZpx c zp8 s) s
/-- ASL abs (43_alu.md R121). -/
def aslAbsWith (c : Config) (abs16 : Addr) (s : State) : State := shiftAt c 0x0E (eaAbs abs16) s

/-- BIT zp (43_alu.md R122). -/
def bitZpWith (c : Config) (zp8 : Byte) (s : State) : State := bitTestAt c 0x24 (eaZp zp8) s
/-- BIT abs (43_alu.md R123). -/
def bitAbsWith (c : Config) (abs16 : Addr) (s : State) : State := bitTestAt c 0x2C (eaAbs abs16) s

/-- ADC #imm at the defaults (R109). -/
def execAdcImm (imm8 : Byte) (s : State) : Result := .next (adcImmWith Config.default imm8 s)
/-- AND #imm at the defaults (R110). -/
def execAndImm (imm8 : Byte) (s : State) : Result := .next (andImmWith Config.default imm8 s)
/-- AND zp at the defaults (R111). -/
def execAndZp (zp8 : Byte) (s : State) : Result := .next (andZpWith Config.default zp8 s)
/-- AND zp,X at the defaults (R112). -/
def execAndZpx (zp8 : Byte) (s : State) : Result := .next (andZpxWith Config.default zp8 s)
/-- AND abs at the defaults (R113). -/
def execAndAbs (abs16 : Addr) (s : State) : Result := .next (andAbsWith Config.default abs16 s)
/-- AND abs,X at the defaults (R114). -/
def execAndAbsx (abs16 : Addr) (s : State) : Result := .next (andAbsxWith Config.default abs16 s)
/-- AND abs,Y at the defaults (R115). -/
def execAndAbsy (abs16 : Addr) (s : State) : Result := .next (andAbsyWith Config.default abs16 s)
/-- AND (zp,X) at the defaults (R116). -/
def execAndIndx (zp8 : Byte) (s : State) : Result := .next (andIndxWith Config.default zp8 s)
/-- AND (zp),Y at the defaults (R117). -/
def execAndIndy (zp8 : Byte) (s : State) : Result := .next (andIndyWith Config.default zp8 s)
/-- ASL A at the defaults (R118). -/
def execAslAcc (s : State) : Result := .next (aslAccWith Config.default s)
/-- ASL zp at the defaults (R119). -/
def execAslZp (zp8 : Byte) (s : State) : Result := .next (aslZpWith Config.default zp8 s)
/-- ASL zp,X at the defaults (R120). -/
def execAslZpx (zp8 : Byte) (s : State) : Result := .next (aslZpxWith Config.default zp8 s)
/-- ASL abs at the defaults (R121). -/
def execAslAbs (abs16 : Addr) (s : State) : Result := .next (aslAbsWith Config.default abs16 s)
/-- BIT zp at the defaults (R122). -/
def execBitZp (zp8 : Byte) (s : State) : Result := .next (bitZpWith Config.default zp8 s)
/-- BIT abs at the defaults (R123). -/
def execBitAbs (abs16 : Addr) (s : State) : Result := .next (bitAbsWith Config.default abs16 s)

end Sys2Proof.Machine
end

