-- ==== Sys2Proof/Machine/Branch.lean ====
section
/-! DEFINITION. The eight conditional branches (44_branch.md). Each meaning starts after both bytes have
been fetched: PC is the branch's address + 2, the `next` of R126. -/

namespace Sys2Proof.Machine

/-- `Branch(f, want)` (44_branch.md R126). The page test compares the target with `next` (D10, log entry
12); each opcode runs only its own rule (D4). -/
def branch (c : Config) (op : Byte) (f : Flag) (want : Bool) (rel8 : Byte) (s : State) : State :=
  let target := relTarget rel8 s
  if readFlag f s = want then
    charge (cost c op false + 1 + (pageCross s.pc target).toNat) { s with pc := target }
  else charge (cost c op false) s

/-- BPL: `Branch(N, 0)` (44_branch.md R127). -/
def bplWith (c : Config) (rel8 : Byte) (s : State) : State := branch c 0x10 .n false rel8 s
/-- BMI: `Branch(N, 1)` (44_branch.md R128). -/
def bmiWith (c : Config) (rel8 : Byte) (s : State) : State := branch c 0x30 .n true rel8 s
/-- BVC: `Branch(V, 0)` (44_branch.md R129). -/
def bvcWith (c : Config) (rel8 : Byte) (s : State) : State := branch c 0x50 .v false rel8 s
/-- BVS: `Branch(V, 1)` (44_branch.md R130). -/
def bvsWith (c : Config) (rel8 : Byte) (s : State) : State := branch c 0x70 .v true rel8 s
/-- BCC: `Branch(C, 0)` (44_branch.md R131). -/
def bccWith (c : Config) (rel8 : Byte) (s : State) : State := branch c 0x90 .c false rel8 s
/-- BCS: `Branch(C, 1)` (44_branch.md R132). -/
def bcsWith (c : Config) (rel8 : Byte) (s : State) : State := branch c 0xB0 .c true rel8 s
/-- BNE: `Branch(Z, 0)` (44_branch.md R133). -/
def bneWith (c : Config) (rel8 : Byte) (s : State) : State := branch c 0xD0 .z false rel8 s
/-- BEQ: `Branch(Z, 1)` (44_branch.md R134). -/
def beqWith (c : Config) (rel8 : Byte) (s : State) : State := branch c 0xF0 .z true rel8 s

/-- BPL at the defaults (R127). -/
def execBpl (rel8 : Byte) (s : State) : Result := .next (bplWith Config.default rel8 s)
/-- BMI at the defaults (R128). -/
def execBmi (rel8 : Byte) (s : State) : Result := .next (bmiWith Config.default rel8 s)
/-- BVC at the defaults (R129). -/
def execBvc (rel8 : Byte) (s : State) : Result := .next (bvcWith Config.default rel8 s)
/-- BVS at the defaults (R130). -/
def execBvs (rel8 : Byte) (s : State) : Result := .next (bvsWith Config.default rel8 s)
/-- BCC at the defaults (R131). -/
def execBcc (rel8 : Byte) (s : State) : Result := .next (bccWith Config.default rel8 s)
/-- BCS at the defaults (R132). -/
def execBcs (rel8 : Byte) (s : State) : Result := .next (bcsWith Config.default rel8 s)
/-- BNE at the defaults (R133). -/
def execBne (rel8 : Byte) (s : State) : Result := .next (bneWith Config.default rel8 s)
/-- BEQ at the defaults (R134). -/
def execBeq (rel8 : Byte) (s : State) : Result := .next (beqWith Config.default rel8 s)

end Sys2Proof.Machine
end

