-- ==== Sys2Proof/Machine/LoadStore.lean ====
section
/-! DEFINITION. LDA and STA (42_load_store.md). Each meaning starts after the instruction's bytes have
been fetched. `ldaXWith c` is the meaning at the parameters `c`; `execLdaX` is the one `exec` calls, at the
defaults of 00_scope.md R8. -/

namespace Sys2Proof.Machine

/-- `A <- v; SetZN(A)` (42_load_store.md R93). -/
def loadA (v : Byte) (s : State) : State := { s with a := v, p := setZN v s.p }

/-- LDA with the byte at a resolved address (42_load_store.md R93). -/
def loadFrom (c : Config) (op : Byte) (r : Resolved) (s : State) : State :=
  charge (cost c op r.crossed) (loadA (memRead c r.addr s) s)

/-- STA to a resolved address: one write, no flag (42_load_store.md R93). -/
def storeTo (c : Config) (op : Byte) (r : Resolved) (s : State) : State :=
  charge (cost c op r.crossed) (memWrite c r.addr s.a s)

/-- LDA #imm (42_load_store.md R94). -/
def ldaImmWith (c : Config) (imm8 : Byte) (s : State) : State := charge (cost c 0xA9 false) (loadA imm8 s)
/-- LDA zp (42_load_store.md R95). -/
def ldaZpWith (c : Config) (zp8 : Byte) (s : State) : State := loadFrom c 0xA5 (eaZp zp8) s
/-- LDA zp,X (42_load_store.md R96). -/
def ldaZpxWith (c : Config) (zp8 : Byte) (s : State) : State := loadFrom c 0xB5 (eaZpx zp8 s) s
/-- LDA abs (42_load_store.md R97). -/
def ldaAbsWith (c : Config) (abs16 : Addr) (s : State) : State := loadFrom c 0xAD (eaAbs abs16) s
/-- LDA abs,X (42_load_store.md R98). -/
def ldaAbsxWith (c : Config) (abs16 : Addr) (s : State) : State := loadFrom c 0xBD (eaAbsx abs16 s) s
/-- LDA abs,Y (42_load_store.md R99). -/
def ldaAbsyWith (c : Config) (abs16 : Addr) (s : State) : State := loadFrom c 0xB9 (eaAbsy abs16 s) s
/-- LDA (zp,X) (42_load_store.md R100). -/
def ldaIndxWith (c : Config) (zp8 : Byte) (s : State) : State := loadFrom c 0xA1 (eaIndx c zp8 s) s
/-- LDA (zp),Y (42_load_store.md R101). -/
def ldaIndyWith (c : Config) (zp8 : Byte) (s : State) : State := loadFrom c 0xB1 (eaIndy c zp8 s) s

/-- STA zp (42_load_store.md R102). -/
def staZpWith (c : Config) (zp8 : Byte) (s : State) : State := storeTo c 0x85 (eaZp zp8) s
/-- STA zp,X (42_load_store.md R103). -/
def staZpxWith (c : Config) (zp8 : Byte) (s : State) : State := storeTo c 0x95 (eaZpx zp8 s) s
/-- STA abs (42_load_store.md R104). -/
def staAbsWith (c : Config) (abs16 : Addr) (s : State) : State := storeTo c 0x8D (eaAbs abs16) s
/-- STA abs,X (42_load_store.md R105). -/
def staAbsxWith (c : Config) (abs16 : Addr) (s : State) : State := storeTo c 0x9D (eaAbsx abs16 s) s
/-- STA abs,Y (42_load_store.md R106). -/
def staAbsyWith (c : Config) (abs16 : Addr) (s : State) : State := storeTo c 0x99 (eaAbsy abs16 s) s
/-- STA (zp,X) (42_load_store.md R107). -/
def staIndxWith (c : Config) (zp8 : Byte) (s : State) : State := storeTo c 0x81 (eaIndx c zp8 s) s
/-- STA (zp),Y (42_load_store.md R108). -/
def staIndyWith (c : Config) (zp8 : Byte) (s : State) : State := storeTo c 0x91 (eaIndy c zp8 s) s

/-- LDA #imm at the defaults (R94). -/
def execLdaImm (imm8 : Byte) (s : State) : Result := .next (ldaImmWith Config.default imm8 s)
/-- LDA zp at the defaults (R95). -/
def execLdaZp (zp8 : Byte) (s : State) : Result := .next (ldaZpWith Config.default zp8 s)
/-- LDA zp,X at the defaults (R96). -/
def execLdaZpx (zp8 : Byte) (s : State) : Result := .next (ldaZpxWith Config.default zp8 s)
/-- LDA abs at the defaults (R97). -/
def execLdaAbs (abs16 : Addr) (s : State) : Result := .next (ldaAbsWith Config.default abs16 s)
/-- LDA abs,X at the defaults (R98). -/
def execLdaAbsx (abs16 : Addr) (s : State) : Result := .next (ldaAbsxWith Config.default abs16 s)
/-- LDA abs,Y at the defaults (R99). -/
def execLdaAbsy (abs16 : Addr) (s : State) : Result := .next (ldaAbsyWith Config.default abs16 s)
/-- LDA (zp,X) at the defaults (R100). -/
def execLdaIndx (zp8 : Byte) (s : State) : Result := .next (ldaIndxWith Config.default zp8 s)
/-- LDA (zp),Y at the defaults (R101). -/
def execLdaIndy (zp8 : Byte) (s : State) : Result := .next (ldaIndyWith Config.default zp8 s)

/-- STA zp at the defaults (R102). -/
def execStaZp (zp8 : Byte) (s : State) : Result := .next (staZpWith Config.default zp8 s)
/-- STA zp,X at the defaults (R103). -/
def execStaZpx (zp8 : Byte) (s : State) : Result := .next (staZpxWith Config.default zp8 s)
/-- STA abs at the defaults (R104). -/
def execStaAbs (abs16 : Addr) (s : State) : Result := .next (staAbsWith Config.default abs16 s)
/-- STA abs,X at the defaults (R105). -/
def execStaAbsx (abs16 : Addr) (s : State) : Result := .next (staAbsxWith Config.default abs16 s)
/-- STA abs,Y at the defaults (R106). -/
def execStaAbsy (abs16 : Addr) (s : State) : Result := .next (staAbsyWith Config.default abs16 s)
/-- STA (zp,X) at the defaults (R107). -/
def execStaIndx (zp8 : Byte) (s : State) : Result := .next (staIndxWith Config.default zp8 s)
/-- STA (zp),Y at the defaults (R108). -/
def execStaIndy (zp8 : Byte) (s : State) : Result := .next (staIndyWith Config.default zp8 s)

end Sys2Proof.Machine
end

