-- ==== Sys2Proof/Machine/System.lean ====
section
/-! DEFINITION. BRK and the unrecognised-opcode fallback (45_system.md). Each meaning starts after the
opcode fetch: PC is the opcode's address + 1. -/

namespace Sys2Proof.Machine

/-- BRK takes the core's only trap (45_system.md R135), whatever I holds (R136). -/
def brkWith (c : Config) (s : State) : State := charge (cost c 0x00 false) (enterBreak c s)

/-- An unrecognised opcode only consumes one cycle, whichever byte it is (45_system.md R137). -/
def oneCycleNoOp (_opcode : Byte) (s : State) : State := charge 1 s

/-- BRK at the defaults (R135). -/
def execBrk (s : State) : Result := .next (brkWith Config.default s)

/-- An unrecognised opcode at the defaults (R137). -/
def execUnrecognised (opcode : Byte) (s : State) : Result :=
  .next (oneCycleNoOp opcode s)

end Sys2Proof.Machine
end

