-- ==== Sys2Proof/Machine/Dispatch.lean ====
section
/-! DEFINITION. The dispatch: each instruction runs exactly one meaning (40_execution.md R69). -/

namespace Sys2Proof.Machine

def exec (i : Instr) (s : State) : Host.Outcome State Fault Refusal :=
  match i with
  | .ldaImm imm8 => Sys2Proof.Machine.execLdaImm imm8 s
  | .ldaZp zp8 => Sys2Proof.Machine.execLdaZp zp8 s
  | .ldaZpx zp8 => Sys2Proof.Machine.execLdaZpx zp8 s
  | .ldaAbs abs16 => Sys2Proof.Machine.execLdaAbs abs16 s
  | .ldaAbsx abs16 => Sys2Proof.Machine.execLdaAbsx abs16 s
  | .ldaAbsy abs16 => Sys2Proof.Machine.execLdaAbsy abs16 s
  | .ldaIndx zp8 => Sys2Proof.Machine.execLdaIndx zp8 s
  | .ldaIndy zp8 => Sys2Proof.Machine.execLdaIndy zp8 s
  | .staZp zp8 => Sys2Proof.Machine.execStaZp zp8 s
  | .staZpx zp8 => Sys2Proof.Machine.execStaZpx zp8 s
  | .staAbs abs16 => Sys2Proof.Machine.execStaAbs abs16 s
  | .staAbsx abs16 => Sys2Proof.Machine.execStaAbsx abs16 s
  | .staAbsy abs16 => Sys2Proof.Machine.execStaAbsy abs16 s
  | .staIndx zp8 => Sys2Proof.Machine.execStaIndx zp8 s
  | .staIndy zp8 => Sys2Proof.Machine.execStaIndy zp8 s
  | .adcImm imm8 => Sys2Proof.Machine.execAdcImm imm8 s
  | .andImm imm8 => Sys2Proof.Machine.execAndImm imm8 s
  | .andZp zp8 => Sys2Proof.Machine.execAndZp zp8 s
  | .andZpx zp8 => Sys2Proof.Machine.execAndZpx zp8 s
  | .andAbs abs16 => Sys2Proof.Machine.execAndAbs abs16 s
  | .andAbsx abs16 => Sys2Proof.Machine.execAndAbsx abs16 s
  | .andAbsy abs16 => Sys2Proof.Machine.execAndAbsy abs16 s
  | .andIndx zp8 => Sys2Proof.Machine.execAndIndx zp8 s
  | .andIndy zp8 => Sys2Proof.Machine.execAndIndy zp8 s
  | .aslAcc => Sys2Proof.Machine.execAslAcc s
  | .aslZp zp8 => Sys2Proof.Machine.execAslZp zp8 s
  | .aslZpx zp8 => Sys2Proof.Machine.execAslZpx zp8 s
  | .aslAbs abs16 => Sys2Proof.Machine.execAslAbs abs16 s
  | .bitZp zp8 => Sys2Proof.Machine.execBitZp zp8 s
  | .bitAbs abs16 => Sys2Proof.Machine.execBitAbs abs16 s
  | .bpl rel8 => Sys2Proof.Machine.execBpl rel8 s
  | .bmi rel8 => Sys2Proof.Machine.execBmi rel8 s
  | .bvc rel8 => Sys2Proof.Machine.execBvc rel8 s
  | .bvs rel8 => Sys2Proof.Machine.execBvs rel8 s
  | .bcc rel8 => Sys2Proof.Machine.execBcc rel8 s
  | .bcs rel8 => Sys2Proof.Machine.execBcs rel8 s
  | .bne rel8 => Sys2Proof.Machine.execBne rel8 s
  | .beq rel8 => Sys2Proof.Machine.execBeq rel8 s
  | .brk => Sys2Proof.Machine.execBrk s
  | .unrecognised opcode => Sys2Proof.Machine.execUnrecognised opcode s

end Sys2Proof.Machine
end

