-- ==== Sys2Proof/Machine/Step.lean ====
section
/-! DEFINITION. One step of the core: one iteration of the execute loop (40_execution.md R67, R68). -/

namespace Sys2Proof.Machine

/-- While Running with budget left: fetch one instruction, run it, and return to Idle if the budget is
used up. While Idle: nothing (60_exceptions.md R149). -/
def step (s : State) : Host.Outcome State Fault Refusal := loopIteration Config.default exec s

/-- `s` with an instruction's bits stored at PC, inside an execute call with budget left, so that the
very next step runs it: the host's `write` and `execute` of 70_reset_and_hazards.md R155 (log entry 2). -/
def State.withFetchWord (s : State) (nbits w : Nat) : State :=
  wake { s with mem := storeBytes Config.default s.pc (tableBytes nbits w) s.mem }

end Sys2Proof.Machine
end

