-- ==== Sys2Proof/Machine/Parametric.lean ====
section
/-! DEFINITION. The core at any value of the parameters of 00_scope.md R8, which `exec`, `step` and
`execute` take at their defaults. The meanings are total (40_execution.md R75), so no outcome type is
needed here. -/

namespace Sys2Proof.Machine

/-- Every instruction's meaning at the parameters `c`. -/
def execWith (c : Config) (i : Instr) (s : State) : State :=
  match i with
  | .ldaImm imm8 => ldaImmWith c imm8 s
  | .ldaZp zp8 => ldaZpWith c zp8 s
  | .ldaZpx zp8 => ldaZpxWith c zp8 s
  | .ldaAbs abs16 => ldaAbsWith c abs16 s
  | .ldaAbsx abs16 => ldaAbsxWith c abs16 s
  | .ldaAbsy abs16 => ldaAbsyWith c abs16 s
  | .ldaIndx zp8 => ldaIndxWith c zp8 s
  | .ldaIndy zp8 => ldaIndyWith c zp8 s
  | .staZp zp8 => staZpWith c zp8 s
  | .staZpx zp8 => staZpxWith c zp8 s
  | .staAbs abs16 => staAbsWith c abs16 s
  | .staAbsx abs16 => staAbsxWith c abs16 s
  | .staAbsy abs16 => staAbsyWith c abs16 s
  | .staIndx zp8 => staIndxWith c zp8 s
  | .staIndy zp8 => staIndyWith c zp8 s
  | .adcImm imm8 => adcImmWith c imm8 s
  | .andImm imm8 => andImmWith c imm8 s
  | .andZp zp8 => andZpWith c zp8 s
  | .andZpx zp8 => andZpxWith c zp8 s
  | .andAbs abs16 => andAbsWith c abs16 s
  | .andAbsx abs16 => andAbsxWith c abs16 s
  | .andAbsy abs16 => andAbsyWith c abs16 s
  | .andIndx zp8 => andIndxWith c zp8 s
  | .andIndy zp8 => andIndyWith c zp8 s
  | .aslAcc => aslAccWith c s
  | .aslZp zp8 => aslZpWith c zp8 s
  | .aslZpx zp8 => aslZpxWith c zp8 s
  | .aslAbs abs16 => aslAbsWith c abs16 s
  | .bitZp zp8 => bitZpWith c zp8 s
  | .bitAbs abs16 => bitAbsWith c abs16 s
  | .bpl rel8 => bplWith c rel8 s
  | .bmi rel8 => bmiWith c rel8 s
  | .bvc rel8 => bvcWith c rel8 s
  | .bvs rel8 => bvsWith c rel8 s
  | .bcc rel8 => bccWith c rel8 s
  | .bcs rel8 => bcsWith c rel8 s
  | .bne rel8 => bneWith c rel8 s
  | .beq rel8 => beqWith c rel8 s
  | .brk => brkWith c s
  | .unrecognised opcode => oneCycleNoOp opcode s

/-- One iteration of the execute loop at the parameters `c` (40_execution.md R67, R68). -/
def stepWith (c : Config) (s : State) : Result :=
  loopIteration c (fun i t => .next (execWith c i t)) s

/-- `execute(budget)` at the parameters `c` (40_execution.md R67). The bound on the number of iterations
is the budget itself: with every base cost at least 1 no more are needed (60_exceptions.md R150). -/
def executeWith (c : Config) (budget : Byte) (s : State) : Result :=
  runToIdle (stepWith c) budget.toNat (beginExecute budget s)

end Sys2Proof.Machine
end

