-- ==== Sys2Proof/Machine/BusTrace.lean ====
section
/-! DEFINITION. The Bus as transactions (20_memory.md R41): the accesses an instruction makes, in order,
computed beside its meaning. "Recording them as an event history is allowed, and it changes nothing in
the semantics." Each instruction makes exactly the accesses its rule lists (D14, log entry 11). -/

namespace Sys2Proof.Machine

/-- The direction of a transaction (20_memory.md R41). -/
inductive Dir where
  | read | write
deriving DecidableEq, Repr

/-- A transaction: `data` is the value returned for a Read or written for a Write (20_memory.md R41). -/
structure Transaction where
  dir : Dir
  addr : Addr
  data : Byte
deriving DecidableEq, Repr

/-- The Read of `a` from a memory. -/
def readTx (c : Config) (m : Memory) (a : Addr) : Transaction := ⟨.read, a, busRead c m a⟩

/-- The two Reads of a zero-page pointer, low byte first (41_addressing.md R92). -/
def pointerTrace (c : Config) (p : Byte) (s : State) : List Transaction :=
  [readTx c s.mem (zext16 p), readTx c s.mem (zext16 (p + 1))]

/-- The Reads an addressing mode makes besides the fetches of its operand bytes: the pointer's two
bytes in the indirect modes, none in the others (41_addressing.md R79-R90). -/
def modeTrace (c : Config) (i : Instr) (s : State) : List Transaction :=
  match i with
  | .ldaIndx z | .staIndx z | .andIndx z => pointerTrace c (z + s.x) s
  | .ldaIndy z | .staIndy z | .andIndy z => pointerTrace c z s
  | .ldaImm _ | .ldaZp _ | .ldaZpx _ | .ldaAbs _ | .ldaAbsx _ | .ldaAbsy _ | .staZp _
  | .staZpx _ | .staAbs _ | .staAbsx _ | .staAbsy _ | .adcImm _ | .andImm _ | .andZp _
  | .andZpx _ | .andAbs _ | .andAbsx _ | .andAbsy _ | .aslAcc | .aslZp _ | .aslZpx _
  | .aslAbs _ | .bitZp _ | .bitAbs _ | .bpl _ | .bmi _ | .bvc _ | .bvs _ | .bcc _ | .bcs _
  | .bne _ | .beq _ | .brk | .unrecognised _ => []

/-- The effective address of an instruction that has one (41_addressing.md). -/
def effectiveAddr (c : Config) (i : Instr) (s : State) : Option Addr :=
  match i with
  | .ldaZp z | .staZp z | .andZp z | .aslZp z | .bitZp z => some (eaZp z).addr
  | .ldaZpx z | .staZpx z | .andZpx z => some (eaZpx z s).addr
  | .aslZpx z => some (eaAslZpx c z s).addr
  | .ldaAbs w | .staAbs w | .andAbs w | .aslAbs w | .bitAbs w => some (eaAbs w).addr
  | .ldaAbsx w | .staAbsx w | .andAbsx w => some (eaAbsx w s).addr
  | .ldaAbsy w | .staAbsy w | .andAbsy w => some (eaAbsy w s).addr
  | .ldaIndx z | .staIndx z | .andIndx z => some (eaIndx c z s).addr
  | .ldaIndy z | .staIndy z | .andIndy z => some (eaIndy c z s).addr
  | .ldaImm _ | .adcImm _ | .andImm _ | .aslAcc | .bpl _ | .bmi _ | .bvc _ | .bvs _ | .bcc _
  | .bcs _ | .bne _ | .beq _ | .brk | .unrecognised _ => none

/-- The transactions of BRK after its fetch: three pushes, then the vector (45_system.md R135). -/
def breakTrace (c : Config) (s : State) : List Transaction :=
  let ret := s.pc + 2
  [⟨.write, stackAddr s.sp, hiByte ret⟩,
   ⟨.write, stackAddr (s.sp - 1), loByte ret⟩,
   ⟨.write, stackAddr (s.sp - 2), setFlag .b true s.p⟩,
   readTx c (enterBreak c s).mem 0xFFFE,
   readTx c (enterBreak c s).mem 0xFFFF]

/-- What an instruction does at its effective address: LDA, AND and BIT read it, STA writes A to it, ASL
reads it and then writes it (20_memory.md R44). -/
def accessTrace (c : Config) (i : Instr) (ea : Addr) (s : State) : List Transaction :=
  match i with
  | .staZp _ | .staZpx _ | .staAbs _ | .staAbsx _ | .staAbsy _ | .staIndx _ | .staIndy _ =>
    [⟨.write, ea, s.a⟩]
  | .aslZp _ | .aslZpx _ | .aslAbs _ =>
    [readTx c s.mem ea, ⟨.write, ea, aslResult (busRead c s.mem ea)⟩]
  | .ldaImm _ | .ldaZp _ | .ldaZpx _ | .ldaAbs _ | .ldaAbsx _ | .ldaAbsy _ | .ldaIndx _
  | .ldaIndy _ | .adcImm _ | .andImm _ | .andZp _ | .andZpx _ | .andAbs _ | .andAbsx _
  | .andAbsy _ | .andIndx _ | .andIndy _ | .aslAcc | .bitZp _ | .bitAbs _ | .bpl _ | .bmi _
  | .bvc _ | .bvs _ | .bcc _ | .bcs _ | .bne _ | .beq _ | .brk | .unrecognised _ =>
    [readTx c s.mem ea]

/-- The transactions of an instruction after its bytes have been fetched, in order. -/
def execTrace (c : Config) (i : Instr) (s : State) : List Transaction :=
  match effectiveAddr c i s with
  | some ea => modeTrace c i s ++ accessTrace c i ea s
  | none => if i = .brk then breakTrace c s else []

/-- The Reads of `n` bytes of the instruction stream (41_addressing.md R77). -/
def fetchTrace (c : Config) (m : Memory) : Nat → Addr → List Transaction
  | 0, _ => []
  | n + 1, a => readTx c m a :: fetchTrace c m n (a + 1)

/-- The transactions of one whole instruction: its fetches, then its own accesses. -/
def stepTrace (c : Config) (s : State) : List Transaction :=
  let i := (fetchInstr c s).1
  fetchTrace c s.mem (instrLength i) s.pc ++ execTrace c i (fetchInstr c s).2

/-- Perform transactions one at a time on a memory: a Read must return the byte the Bus gives at that
moment, a Write goes through the Bus (20_memory.md R38, R41). -/
def replay (c : Config) : List Transaction → Memory → Option Memory
  | [], m => some m
  | t :: ts, m =>
    match t.dir with
    | .read => if t.data = busRead c m t.addr then replay c ts m else none
    | .write => replay c ts (busWrite c m t.addr t.data)

end Sys2Proof.Machine
end

