-- ==== Sys2Proof/Machine/HostPort.lean ====
section
/-! DEFINITION. The host's operations (70_reset_and_hazards.md §3). The device is the core and one
bit: whether a first reset has been made, since R156 refuses an execute call before it (log entry 8). -/

namespace Sys2Proof.Machine

/-- `execute(budget)` (40_execution.md R67): enter the call, then whole steps until Idle. The value the
call returns is `remaining` of the state it ends in (R73). At most `budget` steps are needed, since
every instruction costs at least 1 (60_exceptions.md R150). -/
def execute (budget : Byte) (s : State) : Result :=
  runToIdle step budget.toNat (beginExecute budget s)

/-- The core as the host holds it. -/
structure Device where
  core : State
  /-- Has a reset been made (70_reset_and_hazards.md R156)? -/
  resetDone : Bool
deriving DecidableEq, Repr

/-- The device before the first reset: registers and flags unspecified, memory all zero (10_state.md R36,
20_memory.md R38; log entry 8). -/
def Device.powerOn : Device where
  core :=
    { a := Config.powerOnA, x := Config.powerOnX, y := Config.powerOnY, pc := Config.powerOnPC,
      sp := Config.powerOnSP, p := Config.powerOnP, mem := [], run := .idle, remaining := 0 }
  resetDone := false

/-- The registers `get_reg` reads (70_reset_and_hazards.md R158). -/
inductive Reg where
  | a | x | y | sp | pc | p
deriving DecidableEq, Repr

/-- A write of `set_reg`. There is none for P: "A write of P goes through `set_flag` per bit"
(70_reset_and_hazards.md R158). -/
inductive RegWrite where
  | a (v : Byte)
  | x (v : Byte)
  | y (v : Byte)
  | sp (v : Byte)
  | pc (v : Addr)
deriving DecidableEq, Repr

/-- The host operations (70_reset_and_hazards.md R158). -/
inductive HostOp where
  | reset (start : Option Addr)
  | read (a : Addr)
  | write (a : Addr) (v : Byte)
  | execute (budget : Byte)
  | readFlag (f : Flag)
  | setFlag (f : Flag) (b : Bool)
  | toggleFlag (f : Flag)
  | getReg (r : Reg)
  | setReg (w : RegWrite)
deriving DecidableEq, Repr

/-- What an operation returns. -/
inductive HostValue where
  | unit
  | byte (v : Byte)
  | addr (v : Addr)
  | bit (b : Bool)
  | int (n : Int)
deriving DecidableEq, Repr

/-- `get_reg(r)` (70_reset_and_hazards.md R158); P reads with U = 1 (10_state.md R29). -/
def getReg (r : Reg) (s : State) : HostValue :=
  match r with
  | .a => .byte s.a
  | .x => .byte s.x
  | .y => .byte s.y
  | .sp => .byte s.sp
  | .pc => .addr s.pc
  | .p => .byte (readP s)

/-- `set_reg(r, v)` (70_reset_and_hazards.md R158). -/
def setReg (w : RegWrite) (s : State) : State :=
  match w with
  | .a v => { s with a := v }
  | .x v => { s with x := v }
  | .y v => { s with y := v }
  | .sp v => { s with sp := v }
  | .pc v => { s with pc := v }

/-- `reset(start)`; `start` defaults to `RESET_PC` (70_reset_and_hazards.md R151). What stood before does
not matter (R153). -/
def hostReset (c : Config) (start : Option Addr) : State := State.resetAt c (start.getD c.resetPC)

/-- Pack what an execute call leaves with the value it returns (40_execution.md R73). -/
def executeResult (d : Device) : Result → Host.Outcome (Device × HostValue) Fault Refusal
  | .next t => .next ({ d with core := t }, .int t.remaining)
  | .fault r => .fault r
  | .refused r => .refused r

/-- One host operation. Every operation is made while Idle; while Running it has no move
(70_reset_and_hazards.md R158, R159). -/
def hostOp (op : HostOp) (d : Device) : Host.Outcome (Device × HostValue) Fault Refusal :=
  match d.core.run with
  | .running => .refused .hostOpWhileRunning
  | .idle =>
    match op with
    | .reset start => .next (⟨hostReset Config.default start, true⟩, .unit)
    | .read a => .next (d, .byte (memRead Config.default a d.core))
    | .write a v => .next ({ d with core := memWrite Config.default a v d.core }, .unit)
    | .execute budget =>
      if d.resetDone then executeResult d (execute budget d.core) else .refused .executeBeforeReset
    | .readFlag f => .next (d, .bit (Machine.readFlag f d.core))
    | .setFlag f b => .next ({ d with core := { d.core with p := Machine.setFlag f b d.core.p } }, .unit)
    | .toggleFlag f => .next ({ d with core := { d.core with p := Machine.toggleFlag f d.core.p } }, .unit)
    | .getReg r => .next (d, Machine.getReg r d.core)
    | .setReg w => .next ({ d with core := Machine.setReg w d.core }, .unit)

end Sys2Proof.Machine
end

