-- ==== Sys2Proof/Safety.lean ====
section
/-! DEFINITION. What counts as a safe state of the core, in the terms the claims use. -/

namespace Sys2Proof.Machine

/-- The budget agrees with the run state: inside a call some of it is left, between calls it is used up
and lies in -6..0 (10_state.md R34, 40_execution.md R73). -/
def budgetOk (s : State) : Bool :=
  match s.run with
  | .running => decide (0 < s.remaining) && decide (s.remaining ≤ 255)
  | .idle => decide (-6 ≤ s.remaining) && decide (s.remaining ≤ 0)

/-- The invariant of every state after the first reset: memory in canonical form, the stored U bit 1
(10_state.md R29: "bit U is always 1 after any flag mutation"), the budget as `budgetOk` says. -/
def State.inv (s : State) : Bool := Memory.wf s.mem && storedFlag .u s.p && budgetOk s

/-- The byte the Bus reads at an address (20_memory.md R39), at the defaults. -/
def byteAt (s : State) (a : Addr) : Byte := memRead Config.default a s

/-- Every byte of memory outside the listed addresses reads as before. -/
def memSameExcept (stored : List Addr) (s t : State) : Prop :=
  ∀ a : Addr, a ∉ stored → byteAt t a = byteAt s a

/-- Every byte of memory reads as before. -/
def memSame (s t : State) : Prop := ∀ a : Addr, byteAt t a = byteAt s a

/-- Every flag outside the listed ones reads as before (U reads 1 in any case, 10_state.md R29). -/
def flagsSameExcept (written : List Flag) (s t : State) : Prop :=
  ∀ f : Flag, f ∉ written → readFlag f t = readFlag f s

end Sys2Proof.Machine
end

