-- ==== Sys2Proof/Certificates/Slice0/Obligations.lean ====
section
/-! DEFINITION. The statements for the provers. Where a statement rests on a decision the spec marks as
its own (92_eei_decisions.md), its docstring names it. -/

open Sys2Proof Sys2Proof.Machine

/-! ### Terms shared by several statements -/

/-- Z and N are those of the 8-bit result `v` (42_load_store.md R93). -/
def Sys2Proof.Claims.znOf (v : Byte) (t : State) : Prop :=
  readFlag .z t = decide (v.toNat = 0) ∧ readFlag .n t = decide (128 ≤ v.toNat)

/-- X, Y, SP, PC and the run state are unchanged. -/
def Sys2Proof.Claims.otherRegsSame (s t : State) : Prop :=
  t.x = s.x ∧ t.y = s.y ∧ t.sp = s.sp ∧ t.pc = s.pc ∧ t.run = s.run

/-- `i` completes with `v` in A, Z and N from `v`, U stored as 1, cost `n`, and nothing else changed. -/
def Sys2Proof.Claims.setsA (i : Instr) (s : State) (v : Byte) (n : Nat) : Prop :=
  ∃ t, exec i s = .next t ∧ t.a = v ∧ Claims.znOf v t ∧ storedFlag .u t.p = true ∧
    flagsSameExcept [.z, .n] s t ∧ Claims.otherRegsSame s t ∧
    t.remaining = s.remaining - n ∧ memSame s t

/-- `i` completes with A stored at `r`, at cost `n` and one more if `r` crossed a page, and nothing else
changed. -/
def Sys2Proof.Claims.storesA (i : Instr) (s : State) (r : Resolved) (n : Nat) : Prop :=
  ∃ t, exec i s = .next t ∧ byteAt t r.addr = s.a ∧ memSameExcept [r.addr] s t ∧
    t.p = s.p ∧ t.a = s.a ∧ Claims.otherRegsSame s t ∧
    t.remaining = s.remaining - (n + r.crossed.toNat : Nat)

/-- `i` completes with the byte at `ea` doubled in place: bit 8 of the double in C, Z and N from the
stored byte, cost `n`, and nothing else changed. -/
def Sys2Proof.Claims.doublesAt (i : Instr) (s : State) (ea : Addr) (n : Nat) : Prop :=
  ∃ t, exec i s = .next t ∧ (byteAt t ea).toNat = (byteAt s ea).toNat * 2 % 256 ∧
    readFlag .c t = decide (256 ≤ (byteAt s ea).toNat * 2) ∧ Claims.znOf (byteAt t ea) t ∧
    storedFlag .u t.p = true ∧ flagsSameExcept [.c, .z, .n] s t ∧
    memSameExcept [ea] s t ∧ t.a = s.a ∧ Claims.otherRegsSame s t ∧ t.remaining = s.remaining - n

/-- `i` completes with Z from `A & m`, N and V from bits 7 and 6 of the byte `m` at `ea`, cost `n`, and
nothing else changed. -/
def Sys2Proof.Claims.testsBits (i : Instr) (s : State) (ea : Addr) (n : Nat) : Prop :=
  ∃ t, exec i s = .next t ∧ readFlag .z t = decide (s.a &&& byteAt s ea = 0x00) ∧
    readFlag .n t = (byteAt s ea).getLsbD 7 ∧ readFlag .v t = (byteAt s ea).getLsbD 6 ∧
    storedFlag .u t.p = true ∧ flagsSameExcept [.z, .n, .v] s t ∧
    t.a = s.a ∧ Claims.otherRegsSame s t ∧ t.remaining = s.remaining - n ∧ memSame s t

/-- `i` is `Branch(f, want)` with offset `rel8` (44_branch.md R126); PC is the branch's address + 2. -/
def Sys2Proof.Claims.branches (i : Instr) (f : Flag) (want : Bool) (rel8 : Byte) (s : State) : Prop :=
  ∃ t, exec i s = .next t ∧
    (readFlag f s = want →
      (t.pc.toNat : Int) = (s.pc.toNat + rel8.toInt) % 65536 ∧
      t.remaining = s.remaining - 3 - (if t.pc.toNat / 256 = s.pc.toNat / 256 then 0 else 1)) ∧
    (readFlag f s ≠ want → t.pc = s.pc ∧ t.remaining = s.remaining - 2) ∧
    t.p = s.p ∧ t.a = s.a ∧ t.x = s.x ∧ t.y = s.y ∧ t.sp = s.sp ∧ t.run = s.run ∧ memSame s t

/-- `i` completes, and what the next fetch at `a` gives is the A that was stored. -/
def Sys2Proof.Claims.storeIsFetchedAt (i : Instr) (s : State) (a : Addr) : Prop :=
  ∃ t, exec i s = .next t ∧ (fetchByte Config.default { t with pc := a }).1 = s.a

/-- The flags each instruction writes (43_alu.md R125, which the spec derives). -/
def Sys2Proof.Claims.flagsWritten : Instr → List Flag
  | .ldaImm _ | .ldaZp _ | .ldaZpx _ | .ldaAbs _ | .ldaAbsx _ | .ldaAbsy _ | .ldaIndx _
  | .ldaIndy _ | .andImm _ | .andZp _ | .andZpx _ | .andAbs _ | .andAbsx _ | .andAbsy _
  | .andIndx _ | .andIndy _ => [.n, .z]
  | .adcImm _ => [.n, .v, .z, .c]
  | .aslAcc | .aslZp _ | .aslZpx _ | .aslAbs _ => [.n, .z, .c]
  | .bitZp _ | .bitAbs _ => [.n, .v, .z]
  | .brk => [.b, .i]
  | .staZp _ | .staZpx _ | .staAbs _ | .staAbsx _ | .staAbsy _ | .staIndx _ | .staIndy _
  | .bpl _ | .bmi _ | .bvc _ | .bvs _ | .bcc _ | .bcs _ | .bne _ | .beq _ | .unrecognised _ => []

/-- Is the instruction a branch or BRK, the only ones that move PC off the next instruction? -/
def Sys2Proof.Claims.transfersControl : Instr → Bool
  | .bpl _ | .bmi _ | .bvc _ | .bvs _ | .bcc _ | .bcs _ | .bne _ | .beq _ | .brk => true
  | .ldaImm _ | .ldaZp _ | .ldaZpx _ | .ldaAbs _ | .ldaAbsx _ | .ldaAbsy _ | .ldaIndx _
  | .ldaIndy _ | .staZp _ | .staZpx _ | .staAbs _ | .staAbsx _ | .staAbsy _ | .staIndx _
  | .staIndy _ | .adcImm _ | .andImm _ | .andZp _ | .andZpx _ | .andAbs _ | .andAbsx _
  | .andAbsy _ | .andIndx _ | .andIndy _ | .aslAcc | .aslZp _ | .aslZpx _ | .aslAbs _
  | .bitZp _ | .bitAbs _ | .unrecognised _ => false

/-- The addresses an instruction stores to, by the functions its meaning uses. -/
def Sys2Proof.Claims.storedAddrs (i : Instr) (s : State) : List Addr :=
  match i with
  | .staZp z => [(eaZp z).addr]
  | .staZpx z => [(eaZpx z s).addr]
  | .staAbs w => [(eaAbs w).addr]
  | .staAbsx w => [(eaAbsx w s).addr]
  | .staAbsy w => [(eaAbsy w s).addr]
  | .staIndx z => [(eaIndx Config.default z s).addr]
  | .staIndy z => [(eaIndy Config.default z s).addr]
  | .aslZp z => [(eaZp z).addr]
  | .aslZpx z => [(eaAslZpx Config.default z s).addr]
  | .aslAbs w => [(eaAbs w).addr]
  | .brk => [stackAddr s.sp, stackAddr (s.sp - 1), stackAddr (s.sp - 2)]
  | .ldaImm _ | .ldaZp _ | .ldaZpx _ | .ldaAbs _ | .ldaAbsx _ | .ldaAbsy _ | .ldaIndx _
  | .ldaIndy _ | .adcImm _ | .andImm _ | .andZp _ | .andZpx _ | .andAbs _ | .andAbsx _
  | .andAbsy _ | .andIndx _ | .andIndy _ | .aslAcc | .bitZp _ | .bitAbs _ | .bpl _ | .bmi _
  | .bvc _ | .bvs _ | .bcc _ | .bcs _ | .bne _ | .beq _ | .unrecognised _ => []

/-- The Bus accesses of an instruction after its own bytes are fetched, direction and address in order, as
the rules of 42_load_store.md, 43_alu.md and 45_system.md list them: LDA, AND and BIT read their address,
STA writes it, ASL on memory reads it and then writes it, the indirect modes read the pointer's two bytes
first, BRK pushes three bytes and reads the vector, and nothing else touches the Bus. -/
def Sys2Proof.Claims.busAccesses (c : Config) (i : Instr) (s : State) : List (Dir × Addr) :=
  match i with
  | .ldaZp z | .andZp z | .bitZp z => [(.read, zext16 z)]
  | .ldaZpx z | .andZpx z => [(.read, zext16 (z + s.x))]
  | .ldaAbs w | .andAbs w | .bitAbs w => [(.read, w)]
  | .ldaAbsx w | .andAbsx w => [(.read, w + zext16 s.x)]
  | .ldaAbsy w | .andAbsy w => [(.read, w + zext16 s.y)]
  | .ldaIndx z | .andIndx z =>
    [(.read, zext16 (z + s.x)), (.read, zext16 (z + s.x + 1)), (.read, readZPWord c (z + s.x) s)]
  | .ldaIndy z | .andIndy z =>
    [(.read, zext16 z), (.read, zext16 (z + 1)), (.read, readZPWord c z s + zext16 s.y)]
  | .staZp z => [(.write, zext16 z)]
  | .staZpx z => [(.write, zext16 (z + s.x))]
  | .staAbs w => [(.write, w)]
  | .staAbsx w => [(.write, w + zext16 s.x)]
  | .staAbsy w => [(.write, w + zext16 s.y)]
  | .staIndx z =>
    [(.read, zext16 (z + s.x)), (.read, zext16 (z + s.x + 1)), (.write, readZPWord c (z + s.x) s)]
  | .staIndy z =>
    [(.read, zext16 z), (.read, zext16 (z + 1)), (.write, readZPWord c z s + zext16 s.y)]
  | .aslZp z => [(.read, zext16 z), (.write, zext16 z)]
  | .aslZpx z =>
    let ea := if c.aslZpxUnindexed then zext16 z else zext16 (z + s.x)
    [(.read, ea), (.write, ea)]
  | .aslAbs w => [(.read, w), (.write, w)]
  | .brk =>
    [(.write, stackAddr s.sp), (.write, stackAddr (s.sp - 1)), (.write, stackAddr (s.sp - 2)),
      (.read, 0xFFFE), (.read, 0xFFFF)]
  | .ldaImm _ | .adcImm _ | .andImm _ | .aslAcc | .bpl _ | .bmi _ | .bvc _ | .bvs _ | .bcc _
  | .bcs _ | .bne _ | .beq _ | .unrecognised _ => []

/-- The least and the greatest cost of an instruction: the ranges below the table of 40_execution.md
R71, each row read on its own. -/
def Sys2Proof.Claims.costRange : Instr → Nat × Nat
  | .ldaImm _ | .andImm _ | .adcImm _ | .aslAcc => (2, 2)
  | .ldaZp _ | .staZp _ | .andZp _ | .bitZp _ => (3, 3)
  | .ldaZpx _ | .ldaAbs _ | .staZpx _ | .staAbs _ | .andZpx _ | .andAbs _ | .bitAbs _ => (4, 4)
  | .ldaAbsx _ | .ldaAbsy _ | .staAbsx _ | .staAbsy _ | .andAbsx _ | .andAbsy _ => (4, 5)
  | .ldaIndx _ | .staIndx _ | .andIndx _ | .aslZpx _ | .aslAbs _ => (6, 6)
  | .ldaIndy _ | .staIndy _ | .andIndy _ => (5, 6)
  | .aslZp _ => (5, 5)
  | .bpl _ | .bmi _ | .bvc _ | .bvs _ | .bcc _ | .bcs _ | .bne _ | .beq _ => (2, 4)
  | .brk => (7, 7)
  | .unrecognised _ => (1, 1)

/-! ### Encoding -/

/-- Words written out from 30_encoding.md R60 decode to what they stand for. All bytes but 0xA9, 0x69 and
0x00 are the spec's decision (D6, D7; log entry 6). -/
def Obligations.SpecWordsDecode : Prop :=
  decode [0xA9, 0x80] = .ok (.ldaImm 0x80) [] ∧
  decode [0xB1, 0x10, 0x77] = .ok (.ldaIndy 0x10) [0x77] ∧
  decode [0x9D, 0xFF, 0x03] = .ok (.staAbsx 0x03FF) [] ∧
  decode [0x69, 0x01] = .ok (.adcImm 0x01) [] ∧
  decode [0x2D, 0x34, 0x12] = .ok (.andAbs 0x1234) [] ∧
  decode [0x16, 0x10] = .ok (.aslZpx 0x10) [] ∧
  decode [0x2C, 0x34, 0x12] = .ok (.bitAbs 0x1234) [] ∧
  decode [0xD0, 0xFC] = .ok (.bne 0xFC) [] ∧
  decode [0x00, 0x34] = .ok .brk [0x34] ∧
  decode [0x1E, 0x00, 0x30] = .ok (.unrecognised 0x1E) [0x00, 0x30]

/-- Every well-formed instruction, with every operand, is what its own bytes decode to, whatever
follows them (30_encoding.md §1-§3). -/
def Obligations.DecodeOfEncodeIsTheInstruction : Prop :=
  ∀ (i : Instr) (rest : List Byte), i.WellFormed = true → decode (encode i ++ rest) = .ok i rest

/-- Whatever bytes decode, they are the bytes of a well-formed instruction and the rest: no byte is
dropped, and two byte strings never decode alike (30_encoding.md §1-§3). -/
def Obligations.EncodeOfDecodeIsTheBytes : Prop :=
  ∀ (bytes rest : List Byte) (i : Instr), decode bytes = .ok i rest →
    encode i ++ rest = bytes ∧ i.WellFormed = true

/-- A byte with no row in 30_encoding.md R60 is an unrecognised opcode of length 1, a byte with a row
never is, and there are 39 and 217 of them. The length is the spec's decision D13 (log entry 14). -/
def Obligations.UnrecognisedAreTheOtherBytes : Prop :=
  (∀ op b1 b2 : Byte, isRecognised op = false →
    instrOf op b1 b2 = .unrecognised op ∧ formatLength (formatOf op) = 1) ∧
  (∀ op b1 b2 x : Byte, isRecognised op = true → instrOf op b1 b2 ≠ .unrecognised x) ∧
  recognisedOpcodes.length = 39 ∧ recognisedOpcodes.Nodup ∧
  ((List.range 256).filter (fun n => !isRecognised (BitVec.ofNat 8 n))).length = 217

/-- Decoding succeeds exactly when the opcode byte is there and as many bytes follow as its format asks
for: no opcode byte is rejected (30_encoding.md §1, §3). -/
def Obligations.DecodeFailsOnlyOnShortInput : Prop :=
  ∀ bytes : List Byte,
    (∃ i rest, decode bytes = .ok i rest) ↔
      ∃ op tail, bytes = op :: tail ∧ formatLength (formatOf op) ≤ bytes.length

/-! ### The step -/

/-- While Running with budget left, a step is the decoded instruction's `exec`, from the state whose PC
has moved past the instruction's bytes; the core returns to Idle when the budget reaches zero or below
(40_execution.md §1). -/
def Obligations.StepRunsTheDecodedInstruction : Prop :=
  ∀ (s : State) (i : Instr) (rest : List Byte),
    s.run = .running → 0 < s.remaining →
    decode [byteAt s s.pc, byteAt s (s.pc + 1), byteAt s (s.pc + 2)] = .ok i rest →
    ∃ t, exec i { s with pc := s.pc + BitVec.ofNat 16 (instrLength i) } = .next t ∧
      step s = .next (if t.remaining ≤ 0 then { t with run := .idle } else t)

/-- While Idle a step changes nothing (60_exceptions.md §5; the stutter is the model's way to say it, log
entry 2), and while Running with no budget left it only returns to Idle. -/
def Obligations.StepWithoutBudgetRunsNothing : Prop :=
  (∀ s : State, s.run = .idle → step s = .next s) ∧
  (∀ s : State, s.run = .running → s.remaining ≤ 0 → step s = .next { s with run := .idle })

/-- Every step from every state answers a next state (60_exceptions.md §1). -/
def Obligations.EveryStepAnswersANextState : Prop := ∀ s : State, ∃ t, step s = .next t

/-- `fetch_word()` reads the low byte at PC, then the high byte at PC + 1, and leaves PC past both,
wrapping at 0xFFFF (41_addressing.md R78), at any parameters. -/
def Obligations.FetchWordIsLittleEndian : Prop :=
  ∀ (c : Config) (s : State),
    (fetchWord c s).1.toNat = (memRead c (s.pc + 1) s).toNat * 256 + (memRead c s.pc s).toNat ∧
    (fetchWord c s).2 = { s with pc := s.pc + 2 } ∧
    (s.pc = 0xFFFF → (fetchWord c s).1.toNat =
      (memRead c 0x0000 s).toNat * 256 + (memRead c 0xFFFF s).toNat)

/-- A byte that STA stores, in each of its seven modes, is the byte the next fetch at the mode's address
gives (20_memory.md §6). -/
def Obligations.StoreIsSeenByFetch : Prop :=
  ∀ (z : Byte) (w : Addr) (s : State),
    Claims.storeIsFetchedAt (.staZp z) s (eaZp z).addr ∧
    Claims.storeIsFetchedAt (.staZpx z) s (eaZpx z s).addr ∧
    Claims.storeIsFetchedAt (.staAbs w) s (eaAbs w).addr ∧
    Claims.storeIsFetchedAt (.staAbsx w) s (eaAbsx w s).addr ∧
    Claims.storeIsFetchedAt (.staAbsy w) s (eaAbsy w s).addr ∧
    Claims.storeIsFetchedAt (.staIndx z) s (eaIndx Config.default z s).addr ∧
    Claims.storeIsFetchedAt (.staIndy z) s (eaIndy Config.default z s).addr

/-- What `withFetchWord` stores is what the next step fetches, and that step runs it: the core is inside
an execute call with budget left (the model's own operation, log entry 2). -/
def Obligations.FetchWordIsFetchedNext : Prop :=
  ∀ (s : State) (nbits w : Nat) (i : Instr), decodeTableWord nbits w = some i →
    (fetchInstr Config.default (s.withFetchWord nbits w)).1 = i ∧
    (s.withFetchWord nbits w).run = .running ∧ 0 < (s.withFetchWord nbits w).remaining ∧
    (s.withFetchWord nbits w).pc = s.pc

/-! ### Reset, the invariant and the execute call -/

/-- What reset leaves (10_state.md §7): registers, P = I and U, memory all zero, Idle. PC and SP are the
spec's defaults (D1, D2; log entry 3). -/
def Obligations.ResetLeavesTheStatedValues : Prop :=
  State.reset.a = 0x00 ∧ State.reset.x = 0x00 ∧ State.reset.y = 0x00 ∧
  State.reset.pc = 0x0100 ∧ State.reset.sp = 0xFD ∧
  (∀ f : Flag, readFlag f State.reset = decide (f = .i ∨ f = .u)) ∧ State.reset.p = 0x24 ∧
  (∀ a : Addr, byteAt State.reset a = 0x00) ∧ State.reset.run = .idle

/-- `reset(start)` gives the same state whatever came before, with PC the start address, and none of the
memory survives; with no start it gives `State.reset`, PC being RESET_PC (70_reset_and_hazards.md §1; D2, log
entry 3). The equality of whole states fixes two things the spec does not: `remaining` is the model's
reset value 0 (log entry 1), and `resetDone` is the model's own Bool (log entry 8). -/
def Obligations.ResetForgetsEverything : Prop :=
  ∀ (d e : Device) (start : Addr), d.core.run = .idle → e.core.run = .idle →
    hostOp (.reset (some start)) d = hostOp (.reset (some start)) e ∧
    hostOp (.reset none) d = hostOp (.reset none) e ∧
    hostOp (.reset none) d = .next (⟨State.reset, true⟩, .unit) ∧
    State.reset.pc = Config.default.resetPC ∧
    ∃ d', hostOp (.reset (some start)) d = .next (d', .unit) ∧ d'.resetDone = true ∧
      d'.core = { State.reset with pc := start } ∧ ∀ a : Addr, byteAt d'.core a = 0x00

/-- The state after reset meets the invariant. Its clause about the budget rests on the model's own
reset value of `remaining` (log entry 1). -/
def Obligations.ResetMeetsTheInvariant : Prop := State.reset.inv = true

/-- Every step keeps the invariant: memory stays in canonical form, the stored U bit stays 1, the budget
stays in its range (10_state.md §5, §6; 40_execution.md §3). -/
def Obligations.StepKeepsTheInvariant : Prop :=
  ∀ s t : State, s.inv = true → step s = .next t → t.inv = true

/-- Every host operation keeps the invariant, and a reset establishes it from anything
(70_reset_and_hazards.md §3). That a reset establishes its clause about the budget rests on the model's own
reset value of `remaining` (log entry 1). -/
def Obligations.HostOperationsKeepTheInvariant : Prop :=
  ∀ (op : HostOp) (d d' : Device) (v : HostValue), hostOp op d = .next (d', v) →
    (d.core.inv = true → d'.core.inv = true) ∧
    (∀ start, op = .reset start → d'.core.inv = true)

/-- Every execute call ends Idle with a remainder in -6..0, and with budget 0 it runs nothing
(40_execution.md §1, §3, 60_exceptions.md §5; D9, log entry 19). -/
def Obligations.ExecuteEndsIdleWithItsOvershoot : Prop :=
  ∀ (budget : Byte) (s : State), ∃ t, execute budget s = .next t ∧ t.run = .idle ∧
    -6 ≤ t.remaining ∧ t.remaining ≤ 0 ∧
    (budget = 0x00 → t = { s with run := .idle, remaining := 0 })

/-- An execute call is the first k steps, one instruction each, until the budget is used up: before each of
them the core is Running with budget left, and after the last it is Idle with none left
(70_reset_and_hazards.md §5). With budget 0 it is no step at all (D9, log entry 19). -/
def Obligations.ExecuteIsStepsUntilTheBudgetIsUsed : Prop :=
  ∀ (budget : Byte) (s : State), ∃ (k : Nat) (t : State), k ≤ budget.toNat ∧ (k = 0 ↔ budget = 0x00) ∧
    execute budget s = .next t ∧
    Host.Core.run Sys2Proof.core k (beginExecute budget s) = .next t ∧
    t.run = .idle ∧ t.remaining ≤ 0 ∧
    ∀ j : Nat, j < k → ∃ u : State,
      Host.Core.run Sys2Proof.core j (beginExecute budget s) = .next u ∧
      u.run = .running ∧ 0 < u.remaining

/-- An instruction whose cost exceeds the remaining budget still completes: a call with budget 1 runs
exactly the instruction at PC (40_execution.md §3). -/
def Obligations.BudgetOfOneRunsOneInstruction : Prop :=
  ∀ s : State, ∃ t,
    exec (fetchInstr Config.default s).1
      { (fetchInstr Config.default s).2 with run := .running, remaining := 1 } = .next t ∧
    execute 0x01 s = .next { t with run := .idle }

/-- Zeroed memory runs as BRKs: from reset at any start, n + 1 steps lead to PC = 0 with SP lowered by 3
each, and every one costs 7 (70_reset_and_hazards.md §1; SP_RESET is D1, the BRK cost the source's). -/
def Obligations.ZeroedMemoryRunsBreaks : Prop :=
  ∀ (start : Addr) (n : Nat) (budget : Int), 7 * (n + 1) ≤ budget →
    ∃ t, Host.Core.run Sys2Proof.core (n + 1)
        { State.resetAt Config.default start with run := .running, remaining := budget } = .next t ∧
      t.pc = 0x0000 ∧ t.sp = 0xFD - BitVec.ofNat 8 (3 * (n + 1)) ∧ t.p = 0x24 ∧
      t.a = 0x00 ∧ t.x = 0x00 ∧ t.y = 0x00 ∧ t.remaining = budget - 7 * (n + 1)

/-! ### The status register -/

/-- The layout of P (10_state.md §5): each flag reads its bit, and U reads 1 whatever is stored. -/
def Obligations.StatusRegisterLayout : Prop :=
  ∀ s : State,
    readFlag .c s = s.p.getLsbD 0 ∧ readFlag .z s = s.p.getLsbD 1 ∧ readFlag .i s = s.p.getLsbD 2 ∧
    readFlag .d s = s.p.getLsbD 3 ∧ readFlag .b s = s.p.getLsbD 4 ∧ readFlag .u s = true ∧
    readFlag .v s = s.p.getLsbD 6 ∧ readFlag .n s = s.p.getLsbD 7

/-- `SetFlag` and `ToggleFlag` write one flag, force U to 1 and leave the rest; every instruction that writes
a flag, reset, and the host's `set_flag` and `toggle_flag` leave U at 1 (10_state.md R32). -/
def Obligations.FlagWritesForceU : Prop :=
  (∀ (f g : Flag) (b : Bool) (p : Byte),
    storedFlag .u (setFlag f b p) = true ∧ storedFlag .u (toggleFlag f p) = true ∧
    (f ≠ .u → storedFlag f (setFlag f b p) = b ∧ storedFlag f (toggleFlag f p) = !storedFlag f p) ∧
    (g ≠ .u → g ≠ f → storedFlag g (setFlag f b p) = storedFlag g p ∧
      storedFlag g (toggleFlag f p) = storedFlag g p)) ∧
  (∀ (i : Instr) (s t : State), exec i s = .next t → Claims.flagsWritten i ≠ [] →
    storedFlag .u t.p = true) ∧
  storedFlag .u State.reset.p = true ∧
  (∀ (f : Flag) (b : Bool) (d : Device), d.core.run = .idle →
    hostOp (.setFlag f b) d =
      .next ({ d with core := { d.core with p := setFlag f b d.core.p } }, .unit) ∧
    hostOp (.toggleFlag f) d =
      .next ({ d with core := { d.core with p := toggleFlag f d.core.p } }, .unit))

/-- An instruction leaves every flag outside its row of the flag table as it was (43_alu.md §5, a table
the spec derives), and an instruction that writes no flag leaves P alone. -/
def Obligations.FlagsOutsideTheTableAreKept : Prop :=
  ∀ (i : Instr) (s t : State), exec i s = .next t →
    flagsSameExcept (Claims.flagsWritten i) s t ∧
    (Claims.flagsWritten i = [] → t.p = s.p) ∧
    (Claims.flagsWritten i ≠ [] → storedFlag .u t.p = true)

/-- No instruction writes X, Y or D (10_state.md §2, §5). -/
def Obligations.NoInstructionWritesXYOrD : Prop :=
  ∀ (i : Instr) (s t : State), exec i s = .next t →
    t.x = s.x ∧ t.y = s.y ∧ readFlag .d t = readFlag .d s

/-- Only BRK changes I, B or SP: it leaves I at 1, B at 0 and SP three lower (10_state.md §4, §5). -/
def Obligations.OnlyBreakChangesIBAndSp : Prop :=
  ∀ (i : Instr) (s t : State), exec i s = .next t →
    (i = .brk ∧ readFlag .i t = true ∧ readFlag .b t = false ∧ t.sp = s.sp - 3) ∨
    (i ≠ .brk ∧ readFlag .i t = readFlag .i s ∧ readFlag .b t = readFlag .b s ∧ t.sp = s.sp)

/-- An instruction that is no control transfer leaves PC at the next sequential instruction
(10_state.md §3). -/
def Obligations.OnlyBranchesAndBreakMovePc : Prop :=
  ∀ (i : Instr) (s t : State), Claims.transfersControl i = false → exec i s = .next t → t.pc = s.pc

/-! ### Memory and the Bus -/

/-- A read after a write gives the byte written at that address and what was there at any other
(20_memory.md §2), for any list of cells. -/
def Obligations.MemoryReadAfterWrite : Prop :=
  ∀ (m : Memory) (a b : Nat) (v : Byte),
    Memory.read (Memory.write m a v) b = if b = a then v else Memory.read m b

/-- The Bus: mapped addresses go to memory one to one, an unmapped read gives 0x00 and an unmapped
write has no effect (20_memory.md §3), for any `MAPPED` (D24; log entry 7). -/
def Obligations.BusIsAFilter : Prop :=
  ∀ (c : Config) (m : Memory) (a b : Addr) (v : Byte),
    (c.mapped a = true → busRead c (busWrite c m a v) a = v) ∧
    (c.mapped a = false → busRead c m a = 0x00 ∧ busWrite c m a v = m) ∧
    (a ≠ b → busRead c (busWrite c m a v) b = busRead c m b)

/-- An instruction changes no byte of memory outside the addresses it stores to, and one that stores
nothing leaves the memory as it is (20_memory.md §2, §4). -/
def Obligations.MemoryChangesOnlyWhereStored : Prop :=
  ∀ (i : Instr) (s t : State), exec i s = .next t →
    memSameExcept (Claims.storedAddrs i s) s t ∧ (Claims.storedAddrs i s = [] → t.mem = s.mem)

/-- The recorded Bus transactions of a whole step (the model's own record, log entry 11) performed one at a time
on the memory before it: each recorded read gives the byte recorded, and the writes leave the memory
after the step. And the step uses the memory through the recorded reads alone: over any other memory that
gives the same bytes at the addresses read, the record is the same and so are the registers, P, PC and the
budget after the step (20_memory.md §3, §4; D14), at any parameters. -/
def Obligations.BusTransactionsReplayTheStep : Prop :=
  (∀ (c : Config) (s : State),
    replay c (stepTrace c s) s.mem =
      some (execWith c (fetchInstr c s).1 (fetchInstr c s).2).mem) ∧
  (∀ (c : Config) (s : State) (m : Memory),
    (∀ tx ∈ stepTrace c s, tx.dir = .read → busRead c m tx.addr = busRead c s.mem tx.addr) →
    let t := execWith c (fetchInstr c s).1 (fetchInstr c s).2
    let t' := execWith c (fetchInstr c { s with mem := m }).1 (fetchInstr c { s with mem := m }).2
    stepTrace c { s with mem := m } = stepTrace c s ∧ t' = { t with mem := t'.mem })

/-- The recorded Bus accesses (the model's own record, log entry 11; that there are no dummy accesses is D14),
direction and address in order: a step reads its instruction's bytes at PC and up, then makes the accesses its
rule lists, so that ASL on memory writes one byte after one read of the same address, STA writes one byte,
BRK writes three, and every other instruction writes none (20_memory.md §4). -/
def Obligations.BusWritesPerInstruction : Prop :=
  (∀ (c : Config) (i : Instr) (s : State),
    (execTrace c i s).map (fun t => (t.dir, t.addr)) = Claims.busAccesses c i s ∧
    ((execTrace c i s).filter (fun t => t.dir = .write)).length =
      match i with
      | .staZp _ | .staZpx _ | .staAbs _ | .staAbsx _ | .staAbsy _ | .staIndx _ | .staIndy _
      | .aslZp _ | .aslZpx _ | .aslAbs _ => 1
      | .brk => 3
      | _ => 0) ∧
  (∀ (c : Config) (s : State),
    (stepTrace c s).map (fun t => (t.dir, t.addr)) =
      (List.range (instrLength (fetchInstr c s).1)).map
        (fun k => (Dir.read, s.pc + BitVec.ofNat 16 k)) ++
      Claims.busAccesses c (fetchInstr c s).1 (fetchInstr c s).2)

/-- `push` writes at 0x0100 + SP, then decrements SP, wrapping; the address is always in page 1
(20_memory.md R52, R53), and every other byte is unchanged. -/
def Obligations.PushWritesThenDecrements : Prop :=
  ∀ (b : Byte) (s : State),
    byteAt (push Config.default b s) (stackAddr s.sp) = b ∧
    memSameExcept [stackAddr s.sp] s (push Config.default b s) ∧
    ((push Config.default b s).sp.toNat : Int) = ((s.sp.toNat : Int) - 1) % 256 ∧
    (stackAddr s.sp).toNat = 0x0100 + s.sp.toNat ∧
    (push Config.default b s).a = s.a ∧ (push Config.default b s).p = s.p ∧
    (push Config.default b s).x = s.x ∧ (push Config.default b s).y = s.y ∧
    (push Config.default b s).pc = s.pc ∧ (push Config.default b s).run = s.run ∧
    (push Config.default b s).remaining = s.remaining

/-- `pop` increments SP, wrapping, then reads at 0x0100 + SP, and changes nothing else (20_memory.md §7; that
no instruction uses it is D25). -/
def Obligations.PopIncrementsThenReads : Prop :=
  ∀ s : State,
    (pop Config.default s).2 = { s with sp := s.sp + 1 } ∧
    (pop Config.default s).1 = byteAt s (stackAddr (s.sp + 1)) ∧
    ((pop Config.default s).2.sp.toNat = (s.sp.toNat + 1) % 256)

/-- Three pushes and three pops give the bytes back last in, first out, and SP returns to where it was,
from any SP (20_memory.md §7, a law the spec derives). -/
def Obligations.StackIsLastInFirstOut : Prop :=
  ∀ (b1 b2 b3 : Byte) (s : State),
    let s3 := push Config.default b3 (push Config.default b2 (push Config.default b1 s))
    let p1 := pop Config.default s3
    let p2 := pop Config.default p1.2
    let p3 := pop Config.default p2.2
    p1.1 = b3 ∧ p2.1 = b2 ∧ p3.1 = b1 ∧ p3.2.sp = s.sp

/-! ### The addressing modes -/

/-- `sext_16`, `zext_16`, `bit7` and `bit6` (00_scope.md R10). -/
def Obligations.WideningFollowsTheSign : Prop :=
  ∀ v : Byte,
    (sext16 v).toNat = (if v.toNat < 0x80 then v.toNat else v.toNat + 0xFF00) ∧
    (zext16 v).toNat = v.toNat ∧ bit7 v = v.getLsbD 7 ∧ bit6 v = v.getLsbD 6

/-- The zero-page modes (41_addressing.md R80, R81, R82): the index addition wraps within page 0, and
there is no extra cycle. -/
def Obligations.ZeroPageAddresses : Prop :=
  ∀ (b1 : Byte) (s : State),
    (eaZp b1).addr.toNat = b1.toNat ∧ (eaZp b1).crossed = false ∧
    (eaZpx b1 s).addr.toNat = (b1.toNat + s.x.toNat) % 256 ∧ (eaZpx b1 s).crossed = false ∧
    (eaZpy b1 s).addr.toNat = (b1.toNat + s.y.toNat) % 256 ∧ (eaZpy b1 s).crossed = false

/-- The absolute modes (41_addressing.md §2): the index addition is 16-bit and wraps at 0xFFFF (D11; log
entry 15), and crossing means the page of the sum is not the page of the base. -/
def Obligations.AbsoluteAddresses : Prop :=
  ∀ (w : Addr) (s : State),
    (eaAbs w).addr = w ∧ (eaAbs w).crossed = false ∧
    (eaAbsx w s).addr.toNat = (w.toNat + s.x.toNat) % 65536 ∧
    (eaAbsx w s).crossed = decide ((w.toNat + s.x.toNat) % 65536 / 256 ≠ w.toNat / 256) ∧
    (eaAbsy w s).addr.toNat = (w.toNat + s.y.toNat) % 65536 ∧
    (eaAbsy w s).crossed = decide ((w.toNat + s.y.toNat) % 65536 / 256 ≠ w.toNat / 256)

/-- Indexed Indirect (X) and the pointer read (41_addressing.md R86, R92): both the pointer address and
the address of its high byte wrap within page 0, low byte first, no extra cycle, at any parameters. -/
def Obligations.IndexedIndirectAddresses : Prop :=
  ∀ (c : Config) (b1 p : Byte) (s : State),
    (readZPWord c p s).toNat =
      (memRead c (BitVec.ofNat 16 ((p.toNat + 1) % 256)) s).toNat * 256 +
        (memRead c (BitVec.ofNat 16 p.toNat) s).toNat ∧
    (eaIndx c b1 s).addr = readZPWord c (BitVec.ofNat 8 ((b1.toNat + s.x.toNat) % 256)) s ∧
    (eaIndx c b1 s).crossed = false

/-- Indirect Indexed (Y) (41_addressing.md §2): the pointer is at the operand byte, Y is added in 16 bits,
wrapping at 0xFFFF (D11; log entry 15), and crossing is judged against the unindexed base. -/
def Obligations.IndirectIndexedAddresses : Prop :=
  ∀ (c : Config) (b1 : Byte) (s : State),
    (eaIndy c b1 s).addr.toNat = ((readZPWord c b1 s).toNat + s.y.toNat) % 65536 ∧
    (eaIndy c b1 s).crossed =
      decide (((readZPWord c b1 s).toNat + s.y.toNat) % 65536 / 256 ≠ (readZPWord c b1 s).toNat / 256)

/-- The page-cross test (41_addressing.md R91). -/
def Obligations.PageCrossComparesHighBytes : Prop :=
  ∀ base addr : Addr, pageCross base addr = true ↔ base.toNat / 256 ≠ addr.toNat / 256

/-! ### The instructions -/

/-- LDA #imm (42_load_store.md §2). Its cost is the spec's decision (D5; log entry 5). -/
def Obligations.LdaImmediateLoads : Prop :=
  ∀ (v : Byte) (s : State), Claims.setsA (.ldaImm v) s v 2

/-- LDA in its seven memory modes (42_load_store.md §2): the byte at the mode's address, and the
page-cross cycle in the indexed 16-bit modes. The costs are the spec's decision but for abs,X (D5). -/
def Obligations.LdaMemoryLoads : Prop :=
  ∀ (z : Byte) (w : Addr) (s : State),
    Claims.setsA (.ldaZp z) s (byteAt s (eaZp z).addr) 3 ∧
    Claims.setsA (.ldaZpx z) s (byteAt s (eaZpx z s).addr) 4 ∧
    Claims.setsA (.ldaAbs w) s (byteAt s (eaAbs w).addr) 4 ∧
    Claims.setsA (.ldaAbsx w) s (byteAt s (eaAbsx w s).addr) (4 + (eaAbsx w s).crossed.toNat) ∧
    Claims.setsA (.ldaAbsy w) s (byteAt s (eaAbsy w s).addr) (4 + (eaAbsy w s).crossed.toNat) ∧
    Claims.setsA (.ldaIndx z) s (byteAt s (eaIndx Config.default z s).addr) 6 ∧
    Claims.setsA (.ldaIndy z) s (byteAt s (eaIndy Config.default z s).addr)
      (5 + (eaIndy Config.default z s).crossed.toNat)

/-- STA in its seven modes (42_load_store.md §3): A is stored at the mode's address, no flag changes. The
costs, among them the page-cross cycle of a store, are the spec's decision (D5, 90_conflicts.md C3). -/
def Obligations.StaStores : Prop :=
  ∀ (z : Byte) (w : Addr) (s : State),
    Claims.storesA (.staZp z) s (eaZp z) 3 ∧ Claims.storesA (.staZpx z) s (eaZpx z s) 4 ∧
    Claims.storesA (.staAbs w) s (eaAbs w) 4 ∧ Claims.storesA (.staAbsx w) s (eaAbsx w s) 4 ∧
    Claims.storesA (.staAbsy w) s (eaAbsy w s) 4 ∧
    Claims.storesA (.staIndx z) s (eaIndx Config.default z s) 6 ∧
    Claims.storesA (.staIndy z) s (eaIndy Config.default z s) 5

/-- ADC #imm (43_alu.md R109): the exact sum of A, the operand and the carry, its low byte in A, bit 8 in
C, and V when the operands share a sign and the result's sign differs. That D plays no part is the
spec's reading of a non-goal (D12; log entry 18). -/
def Obligations.AdcAddsWithCarry : Prop :=
  ∀ (v : Byte) (s : State), ∃ t, exec (.adcImm v) s = .next t ∧
    t.a.toNat = (s.a.toNat + v.toNat + (readFlag .c s).toNat) % 256 ∧
    readFlag .c t = decide (0xFF < s.a.toNat + v.toNat + (readFlag .c s).toNat) ∧
    Claims.znOf t.a t ∧
    readFlag .v t = decide ((s.a ^^^ t.a) &&& (v ^^^ t.a) &&& 0x80 ≠ 0) ∧
    (readFlag .v t = true ↔ s.a.getLsbD 7 = v.getLsbD 7 ∧ t.a.getLsbD 7 ≠ s.a.getLsbD 7) ∧
    storedFlag .u t.p = true ∧ flagsSameExcept [.c, .z, .n, .v] s t ∧ Claims.otherRegsSame s t ∧
    t.remaining = s.remaining - 2 ∧ memSame s t

/-- V after ADC says exactly that the signed sum, carry included, does not fit in 8 bits
(43_alu.md §1, §5). -/
def Obligations.AdcOverflowIsSignedOverflow : Prop :=
  ∀ (v : Byte) (s t : State), exec (.adcImm v) s = .next t →
    (readFlag .v t = true ↔
      s.a.toInt + v.toInt + ((readFlag .c s).toNat : Int) < -128 ∨
      127 < s.a.toInt + v.toInt + ((readFlag .c s).toNat : Int))

/-- AND #imm (43_alu.md §2). Its cost is the spec's decision (D5). -/
def Obligations.AndImmediateMasks : Prop :=
  ∀ (v : Byte) (s : State), Claims.setsA (.andImm v) s (s.a &&& v) 2

/-- AND in its seven memory modes (43_alu.md §2). The costs are the spec's decision (D5). -/
def Obligations.AndMemoryMasks : Prop :=
  ∀ (z : Byte) (w : Addr) (s : State),
    Claims.setsA (.andZp z) s (s.a &&& byteAt s (eaZp z).addr) 3 ∧
    Claims.setsA (.andZpx z) s (s.a &&& byteAt s (eaZpx z s).addr) 4 ∧
    Claims.setsA (.andAbs w) s (s.a &&& byteAt s (eaAbs w).addr) 4 ∧
    Claims.setsA (.andAbsx w) s (s.a &&& byteAt s (eaAbsx w s).addr)
      (4 + (eaAbsx w s).crossed.toNat) ∧
    Claims.setsA (.andAbsy w) s (s.a &&& byteAt s (eaAbsy w s).addr)
      (4 + (eaAbsy w s).crossed.toNat) ∧
    Claims.setsA (.andIndx z) s (s.a &&& byteAt s (eaIndx Config.default z s).addr) 6 ∧
    Claims.setsA (.andIndy z) s (s.a &&& byteAt s (eaIndy Config.default z s).addr)
      (5 + (eaIndy Config.default z s).crossed.toNat)

/-- ASL A (43_alu.md §3). Its cost is the spec's decision (D5). -/
def Obligations.AslAccumulatorDoubles : Prop :=
  ∀ s : State, ∃ t, exec .aslAcc s = .next t ∧
    t.a.toNat = s.a.toNat * 2 % 256 ∧ readFlag .c t = s.a.getLsbD 7 ∧ t.a.getLsbD 0 = false ∧
    Claims.znOf t.a t ∧ storedFlag .u t.p = true ∧ flagsSameExcept [.c, .z, .n] s t ∧
    Claims.otherRegsSame s t ∧ t.remaining = s.remaining - 2 ∧ memSame s t

/-- ASL in its three memory modes (43_alu.md §3): the byte at the mode's address is doubled in place. At
the defaults zp,X is indexed (D3; log entry 4); the costs are D5. -/
def Obligations.AslMemoryDoubles : Prop :=
  ∀ (z : Byte) (w : Addr) (s : State),
    Claims.doublesAt (.aslZp z) s (eaZp z).addr 5 ∧
    Claims.doublesAt (.aslZpx z) s (eaZpx z s).addr 6 ∧
    Claims.doublesAt (.aslAbs w) s (eaAbs w).addr 6

/-- `ASL_ZPX_UNINDEXED` chooses the byte ASL zp,X shifts, and nothing else of its address
(43_alu.md §3, D3; log entry 4): the other byte of the two is untouched. -/
def Obligations.AslZpxParameterChoosesTheByte : Prop :=
  ∀ (c : Config) (z : Byte) (s : State), s.x ≠ 0x00 → (∀ a, c.mapped a = true) →
    let t := execWith c (.aslZpx z) s
    let used := if c.aslZpxUnindexed then zext16 z else zext16 (z + s.x)
    let other := if c.aslZpxUnindexed then zext16 (z + s.x) else zext16 z
    busRead c t.mem used = aslResult (busRead c s.mem used) ∧
    busRead c t.mem other = busRead c s.mem other ∧
    t.remaining = s.remaining - c.baseCost 0x16

/-- BIT zp and BIT abs (43_alu.md R122, R123). -/
def Obligations.BitTests : Prop :=
  ∀ (z : Byte) (w : Addr) (s : State),
    Claims.testsBits (.bitZp z) s (eaZp z).addr 3 ∧ Claims.testsBits (.bitAbs w) s (eaAbs w).addr 4

/-- The eight branches (44_branch.md §1, §2): one flag against one value; taken, the target in 16 bits
(D11) at 3 cycles and one more if its page is not the page of the PC after the branch (D10; log entry
12); not taken, 2 cycles. Flags are never modified. -/
def Obligations.BranchesTestOneFlag : Prop :=
  ∀ (r : Byte) (s : State),
    Claims.branches (.bpl r) .n false r s ∧ Claims.branches (.bmi r) .n true r s ∧
    Claims.branches (.bvc r) .v false r s ∧ Claims.branches (.bvs r) .v true r s ∧
    Claims.branches (.bcc r) .c false r s ∧ Claims.branches (.bcs r) .c true r s ∧
    Claims.branches (.bne r) .z false r s ∧ Claims.branches (.beq r) .z true r s

/-- BRK (45_system.md §1, 60_exceptions.md §3), PC being its address + 1: PC + 2 is pushed high byte
first, then P with B and U set; B ends 0 and I ends 1; PC comes from the vector. Which PC is pushed is
the spec's decision (D22; log entry 13). -/
def Obligations.BreakEntersTheVector : Prop :=
  ∀ s : State, ∃ t, exec .brk s = .next t ∧
    (byteAt t (stackAddr s.sp)).toNat = (s.pc.toNat + 2) % 65536 / 256 ∧
    (byteAt t (stackAddr (s.sp - 1))).toNat = (s.pc.toNat + 2) % 256 ∧
    byteAt t (stackAddr (s.sp - 2)) = s.p ||| 0x30 ∧
    memSameExcept [stackAddr s.sp, stackAddr (s.sp - 1), stackAddr (s.sp - 2)] s t ∧
    t.sp = s.sp - 3 ∧ t.pc.toNat = (byteAt s 0xFFFF).toNat * 256 + (byteAt s 0xFFFE).toNat ∧
    readFlag .b t = false ∧ readFlag .i t = true ∧ storedFlag .u t.p = true ∧
    flagsSameExcept [.b, .i] s t ∧
    t.a = s.a ∧ t.x = s.x ∧ t.y = s.y ∧ t.run = s.run ∧ t.remaining = s.remaining - 7

/-- An unrecognised opcode only consumes one cycle: all the step changes is PC, one further (the spec's
decision D13; log entry 14), and the budget (45_system.md §2). -/
def Obligations.UnrecognisedOnlyAdvances : Prop :=
  (∀ (op : Byte) (s : State), exec (.unrecognised op) s = .next { s with remaining := s.remaining - 1 }) ∧
  (∀ s : State, s.run = .running → 1 < s.remaining → isRecognised (byteAt s s.pc) = false →
    step s = .next { s with pc := s.pc + 1, remaining := s.remaining - 1 })

/-- What every instruction costs lies in its row's range: at least 1 and at most 7 (40_execution.md §2; the
cells R71 calls decided are D5, log entry 5). -/
def Obligations.CostsLieInTheTable : Prop :=
  ∀ (i : Instr) (s t : State), exec i s = .next t →
    ((Claims.costRange i).1 : Int) ≤ s.remaining - t.remaining ∧
    s.remaining - t.remaining ≤ ((Claims.costRange i).2 : Int)

/-- An instruction's effect and cost do not depend on the budget or the run state (40_execution.md §3): two
states that agree on registers, flags and memory end in states that agree on them, at the same cost. -/
def Obligations.InstructionsIgnoreTheBudget : Prop :=
  ∀ (i : Instr) (s t : State) (r : Int) (q : RunState), exec i s = .next t →
    exec i { s with remaining := r, run := q } =
      .next { t with remaining := r - (s.remaining - t.remaining), run := q }

/-- `exec` is the parametric meaning at the defaults of the parameters (00_scope.md §3). -/
def Obligations.ExecIsTheDefaultInstance : Prop :=
  ∀ (i : Instr) (s : State), exec i s = .next (execWith Config.default i s)

/-! ### The host's operations -/

/-- `write` then `read` gives the byte written, and other addresses are as before, the registers too
(70_reset_and_hazards.md §3). -/
def Obligations.HostReadsBackItsWrite : Prop :=
  ∀ (d : Device) (a b : Addr) (v : Byte), d.core.run = .idle →
    ∃ d', hostOp (.write a v) d = .next (d', .unit) ∧ d'.core.run = .idle ∧
      hostOp (.read a) d' = .next (d', .byte v) ∧
      (b ≠ a → hostOp (.read b) d' = .next (d', .byte (byteAt d.core b))) ∧
      (∀ r, hostOp (.getReg r) d' = .next (d', getReg r d.core))

/-- `get_reg` gives each register's value, P with U as 1; `set_reg` sets the one register and `get_reg` then
gives it; `set_flag` and `toggle_flag` change the one flag `read_flag` then reads, U reads 1, and
`get_reg(P)` gives the byte so changed (70_reset_and_hazards.md §3; D15, D23; log entries 10 and 21). -/
def Obligations.HostSetsRegistersAndFlags : Prop :=
  ∀ (d : Device) (v : Byte) (w : Addr) (f g : Flag) (b : Bool), d.core.run = .idle →
    (hostOp (.getReg .a) d = .next (d, .byte d.core.a) ∧
      hostOp (.getReg .x) d = .next (d, .byte d.core.x) ∧
      hostOp (.getReg .y) d = .next (d, .byte d.core.y) ∧
      hostOp (.getReg .sp) d = .next (d, .byte d.core.sp) ∧
      hostOp (.getReg .pc) d = .next (d, .addr d.core.pc) ∧
      hostOp (.getReg .p) d = .next (d, .byte (d.core.p ||| 0x20))) ∧
    (∃ d', hostOp (.setReg (.a v)) d = .next (d', .unit) ∧
      d' = { d with core := { d.core with a := v } } ∧
      hostOp (.getReg .a) d' = .next (d', .byte v)) ∧
    (∃ d', hostOp (.setReg (.x v)) d = .next (d', .unit) ∧
      d' = { d with core := { d.core with x := v } } ∧
      hostOp (.getReg .x) d' = .next (d', .byte v)) ∧
    (∃ d', hostOp (.setReg (.y v)) d = .next (d', .unit) ∧
      d' = { d with core := { d.core with y := v } } ∧
      hostOp (.getReg .y) d' = .next (d', .byte v)) ∧
    (∃ d', hostOp (.setReg (.sp v)) d = .next (d', .unit) ∧
      d' = { d with core := { d.core with sp := v } } ∧
      hostOp (.getReg .sp) d' = .next (d', .byte v)) ∧
    (∃ d', hostOp (.setReg (.pc w)) d = .next (d', .unit) ∧
      d' = { d with core := { d.core with pc := w } } ∧
      hostOp (.getReg .pc) d' = .next (d', .addr w)) ∧
    (∃ d', hostOp (.setFlag f b) d = .next (d', .unit) ∧
      hostOp (.readFlag g) d' = .next (d', .bit
        (if g = .u then true else if g = f then b else readFlag g d.core)) ∧
      hostOp (.getReg .p) d' = .next (d', .byte (setFlag f b d.core.p))) ∧
    (∃ d', hostOp (.toggleFlag f) d = .next (d', .unit) ∧
      hostOp (.readFlag g) d' = .next (d', .bit
        (if g = .u then true else if g = f then !readFlag g d.core else readFlag g d.core)) ∧
      hostOp (.getReg .p) d' = .next (d', .byte (toggleFlag f d.core.p)))

/-- The two refusals: any host operation while Running, and an execute call before the first reset
(70_reset_and_hazards.md §2, §3; D16, D26; log entries 8 and 9). Nothing else is refused: an Idle device makes
every operation but execute, reset or not, and execute after a reset; it stays Idle, and only a reset
makes it one that has been reset. The value execute returns is the remainder (D9, log entry 19). -/
def Obligations.HostIsRefusedOnlyAsStated : Prop :=
  (∀ (op : HostOp) (d : Device), d.core.run = .running → hostOp op d = .refused .hostOpWhileRunning) ∧
  (∀ (n : Byte) (d : Device), d.core.run = .idle → d.resetDone = false →
    hostOp (.execute n) d = .refused .executeBeforeReset) ∧
  (∀ (op : HostOp) (d : Device), d.core.run = .idle →
    (d.resetDone = true ∨ ∀ n, op ≠ .execute n) →
    ∃ d' v, hostOp op d = .next (d', v) ∧ d'.core.run = .idle ∧
      (d'.resetDone = true ↔ d.resetDone = true ∨ ∃ start, op = .reset start) ∧
      ∀ n, op = .execute n → execute n d.core = .next d'.core ∧ v = .int d'.core.remaining)
end

