-- ==== Sys2Proof/Laws/BusTrace.lean ====
section
/-! SUPPORT. How a list of Bus transactions replays (20_memory.md R41). -/

namespace Sys2Proof.Machine

/-- Replaying one list after another. -/
theorem replay_append (c : Config) (l₁ l₂ : List Transaction) (m : Memory) :
    replay c (l₁ ++ l₂) m = (replay c l₁ m).bind (replay c l₂) := by
  induction l₁ generalizing m with
  | nil => rfl
  | cons t l ih =>
    simp only [List.cons_append, replay]
    split
    · split
      · exact ih m
      · rfl
    · exact ih _

/-- Fetches replay on the memory they were recorded from, and leave it. -/
theorem replay_fetchTrace (c : Config) (m : Memory) (n : Nat) (a : Addr) :
    replay c (fetchTrace c m n a) m = some m := by
  induction n generalizing a with
  | zero => rfl
  | succ n ih => simp [fetchTrace, replay, readTx, ih]

end Sys2Proof.Machine
end

