-- ==== Sys2Proof/Laws/Decode.lean ====
section
/-! SUPPORT. Small lemmas about words, the opcode table and fetching one instruction. -/

namespace Sys2Proof

/-- `hi:lo` is `hi * 256 + lo` (00_scope.md R9). -/
theorem wordOf_toNat (lo hi : Byte) : (wordOf lo hi).toNat = hi.toNat * 256 + lo.toNat := by
  have h := lo.isLt
  unfold wordOf
  rw [BitVec.toNat_append, ← Nat.shiftLeft_add_eq_or_of_lt h, Nat.shiftLeft_eq]

theorem loByte_toNat (w : Addr) : (loByte w).toNat = w.toNat % 256 := by
  simp [loByte]

theorem hiByte_toNat (w : Addr) : (hiByte w).toNat = w.toNat / 256 := by
  have h := w.isLt
  simp only [hiByte, BitVec.extractLsb'_toNat, Nat.shiftRight_eq_div_pow]
  omega

@[simp] theorem wordOf_loByte_hiByte (w : Addr) : wordOf (loByte w) (hiByte w) = w := by
  apply BitVec.eq_of_toNat_eq
  rw [wordOf_toNat, loByte_toNat, hiByte_toNat]
  omega

@[simp] theorem loByte_wordOf (lo hi : Byte) : loByte (wordOf lo hi) = lo := by
  apply BitVec.eq_of_toNat_eq
  have := lo.isLt
  rw [loByte_toNat, wordOf_toNat]
  omega

@[simp] theorem hiByte_wordOf (lo hi : Byte) : hiByte (wordOf lo hi) = hi := by
  apply BitVec.eq_of_toNat_eq
  have := lo.isLt
  rw [hiByte_toNat, wordOf_toNat]
  omega

namespace Machine

/-- What fetching one instruction reads and where it leaves PC: bytes at PC, PC + 1, PC + 2, as many as
the format has (30_encoding.md R56, 41_addressing.md R77). -/
theorem fetchInstr_eq (c : Config) (s : State) :
    fetchInstr c s =
      match formatOf (memRead c s.pc s) with
      | .op => (instrOf (memRead c s.pc s) 0 0, { s with pc := s.pc + 1 })
      | .op8 => (instrOf (memRead c s.pc s) (memRead c (s.pc + 1) s) 0, { s with pc := s.pc + 1 + 1 })
      | .op16 => (instrOf (memRead c s.pc s) (memRead c (s.pc + 1) s) (memRead c (s.pc + 1 + 1) s),
          { s with pc := s.pc + 1 + 1 + 1 }) := by
  unfold fetchInstr
  simp only [fetchByte, fetchWord, loByte_wordOf, hiByte_wordOf]
  cases formatOf (memRead c s.pc s) <;> rfl

/-- Fetching changes nothing but PC. -/
theorem fetchInstr_frame (c : Config) (s : State) :
    (fetchInstr c s).2 = { s with pc := (fetchInstr c s).2.pc } := by
  rw [fetchInstr_eq]; split <;> rfl

/-- What one iteration of the loop can do. -/
theorem loopIteration_cases (c : Config) (ex : Instr → State → Result) (s : State) :
    (s.run = .idle ∧ loopIteration c ex s = .next s) ∨
    (s.run = .running ∧ ¬ 0 < s.remaining ∧ loopIteration c ex s = .next { s with run := .idle }) ∨
    (s.run = .running ∧ 0 < s.remaining ∧
      loopIteration c ex s = settleResult (ex (fetchInstr c s).1 (fetchInstr c s).2)) := by
  unfold loopIteration
  cases h : s.run with
  | idle => exact .inl ⟨rfl, rfl⟩
  | running =>
    by_cases hr : 0 < s.remaining
    · exact .inr (.inr ⟨rfl, hr, by simp [hr]⟩)
    · exact .inr (.inl ⟨rfl, hr, by simp [hr]⟩)

/-- The fields a fetch leaves alone. -/
theorem fetchInstr_fields (c : Config) (s : State) :
    (fetchInstr c s).2.mem = s.mem ∧ (fetchInstr c s).2.p = s.p ∧ (fetchInstr c s).2.sp = s.sp ∧
    (fetchInstr c s).2.a = s.a ∧ (fetchInstr c s).2.x = s.x ∧ (fetchInstr c s).2.y = s.y ∧
    (fetchInstr c s).2.run = s.run ∧ (fetchInstr c s).2.remaining = s.remaining := by
  rw [fetchInstr_frame]
  exact ⟨rfl, rfl, rfl, rfl, rfl, rfl, rfl, rfl⟩

/-- Running to Idle stops where the core is Idle. -/
theorem runToIdle_idle (st : State → Result) (n : Nat) (s : State) (h : s.run = .idle) :
    runToIdle st n s = .next s := by
  cases n <;> simp [runToIdle, h]

/-- Running to Idle takes one step while the core is Running. -/
theorem runToIdle_running (st : State → Result) (n : Nat) (s t : State) (h : s.run = .running)
    (ht : st s = .next t) : runToIdle st (n + 1) s = runToIdle st n t := by
  simp [runToIdle, h, ht]

/-- The core is inside a call with budget left after `wake`, and only the budget and the run state moved. -/
theorem wake_spec (s : State) :
    (wake s).run = .running ∧ 0 < (wake s).remaining ∧
    wake s = { s with run := .running, remaining := (wake s).remaining } := by
  unfold wake
  split
  · rename_i hr
    split <;> rename_i h0
    · exact ⟨hr, h0, by cases s; cases hr; rfl⟩
    · exact ⟨rfl, by simp [beginExecute], rfl⟩
  · exact ⟨rfl, by simp [beginExecute], rfl⟩

end Machine

end Sys2Proof
end

