-- ==== Sys2Proof/Laws/Memory.lean ====
section
/-! SUPPORT. The laws of the memory and of the Bus (20_memory.md §2, §3): read after write, the canonical
form, and the Bus at the default `MAPPED`. -/

namespace Sys2Proof.Machine

@[simp] theorem read_nil (a : Nat) : Memory.read [] a = 0x00 := rfl

/-- Erasing an address makes it read 0x00 and keeps the others. -/
theorem read_erase (m : Memory) (a b : Nat) :
    Memory.read (Memory.erase m a) b = if b = a then 0x00 else Memory.read m b := by
  induction m with
  | nil => simp [Memory.erase]
  | cons h m ih =>
    obtain ⟨k, w⟩ := h
    by_cases hk : a = k <;> by_cases hb : b = k <;> simp_all [Memory.erase, Memory.read]
    · intro hba; simp_all

/-- No entry for an erased address is left. -/
theorem erase_fresh (m : Memory) (a : Nat) : ∀ e ∈ Memory.erase m a, e.1 ≠ a := by
  induction m with
  | nil => simp [Memory.erase]
  | cons h m ih =>
    obtain ⟨k, w⟩ := h
    by_cases hk : a = k
    · simp only [Memory.erase, hk, if_true]
      exact hk ▸ ih
    · simp only [Memory.erase, hk, if_false, List.forall_mem_cons]
      exact ⟨fun h => hk h.symm, ih⟩

/-- Inserting a fresh address makes it read the byte and keeps the others. -/
theorem read_insert (m : Memory) (a b : Nat) (v : Byte) (h : ∀ e ∈ m, e.1 ≠ a) :
    Memory.read (Memory.insert m a v) b = if b = a then v else Memory.read m b := by
  induction m with
  | nil => simp [Memory.insert, Memory.read]
  | cons e m ih =>
    obtain ⟨k, w⟩ := e
    have hk : k ≠ a := h (k, w) (by simp)
    have ih := ih (fun e he => h e (by simp [he]))
    by_cases hlt : a < k
    · simp [Memory.insert, hlt, Memory.read]
    · by_cases hb : b = k
      · subst hb; simp [Memory.insert, hlt, Memory.read, hk]
      · simp [Memory.insert, hlt, Memory.read, hb, ih]

/-- Erasing keeps the canonical form. -/
theorem wfFrom_erase (m : Memory) (a lo : Nat) (h : Memory.wfFrom lo m = true) :
    Memory.wfFrom lo (Memory.erase m a) = true := by
  induction m generalizing lo with
  | nil => rfl
  | cons e m ih =>
    obtain ⟨k, w⟩ := e
    simp only [Memory.wfFrom, Bool.and_eq_true, decide_eq_true_eq] at h
    by_cases hk : a = k
    · simp only [Memory.erase, hk, if_true]
      have := ih (k + 1) h.2
      rw [hk] at this
      revert this
      generalize Memory.erase m k = m'
      intro this
      cases m' with
      | nil => rfl
      | cons e' m' =>
        simp only [Memory.wfFrom, Bool.and_eq_true, decide_eq_true_eq] at this ⊢
        exact ⟨⟨⟨by omega, this.1.1.2⟩, this.1.2⟩, this.2⟩
    · simp only [Memory.erase, hk, if_false, Memory.wfFrom, Bool.and_eq_true, decide_eq_true_eq]
      exact ⟨h.1, ih (k + 1) h.2⟩

/-- Inserting a fresh address with a byte other than 0x00 keeps the canonical form. -/
theorem wfFrom_insert (m : Memory) (a lo : Nat) (v : Byte) (h : Memory.wfFrom lo m = true)
    (hf : ∀ e ∈ m, e.1 ≠ a) (hlo : lo ≤ a) (ha : a < 65536) (hv : v ≠ 0x00) :
    Memory.wfFrom lo (Memory.insert m a v) = true := by
  induction m generalizing lo with
  | nil => simpa [Memory.insert, Memory.wfFrom, hlo, ha] using hv
  | cons e m ih =>
    obtain ⟨k, w⟩ := e
    have hk : k ≠ a := hf (k, w) (by simp)
    simp only [Memory.wfFrom, Bool.and_eq_true, decide_eq_true_eq, bne_iff_ne] at h
    by_cases hlt : a < k
    · simp only [Memory.insert, hlt, if_true, Memory.wfFrom, Bool.and_eq_true, decide_eq_true_eq,
        bne_iff_ne]
      exact ⟨⟨⟨hlo, ha⟩, hv⟩, ⟨⟨by omega, h.1.1.2⟩, h.1.2⟩, h.2⟩
    · simp only [Memory.insert, hlt, if_false, Memory.wfFrom, Bool.and_eq_true, decide_eq_true_eq,
        bne_iff_ne]
      exact ⟨h.1, ih (k + 1) h.2 (fun e he => hf e (by simp [he])) (by omega)⟩

/-- A write keeps the canonical form. -/
theorem wf_write (m : Memory) (a : Nat) (v : Byte) (h : Memory.wf m = true) (ha : a < 65536) :
    Memory.wf (Memory.write m a v) = true := by
  unfold Memory.write
  split
  · exact wfFrom_erase m a 0 h
  · exact wfFrom_insert _ a 0 v (wfFrom_erase m a 0 h) (erase_fresh m a) (Nat.zero_le a) ha ‹_›

/-- A Bus write keeps the canonical form, whatever is mapped. -/
theorem wf_busWrite (c : Config) (m : Memory) (a : Addr) (v : Byte) (h : Memory.wf m = true) :
    Memory.wf (busWrite c m a v) = true := by
  unfold busWrite
  split
  · exact wf_write m a.toNat v h a.isLt
  · exact h

/-- A processor write keeps the canonical form. -/
theorem wf_memWrite (c : Config) (a : Addr) (v : Byte) (s : State) (h : Memory.wf s.mem = true) :
    Memory.wf (memWrite c a v s).mem = true := wf_busWrite c s.mem a v h

/-- A push keeps the canonical form. -/
theorem wf_push (c : Config) (b : Byte) (s : State) (h : Memory.wf s.mem = true) :
    Memory.wf (push c b s).mem = true := wf_busWrite c s.mem _ b h

/-- The trap entry keeps the canonical form. -/
theorem wf_enterBreak (c : Config) (s : State) (h : Memory.wf s.mem = true) :
    Memory.wf (enterBreak c s).mem = true :=
  wf_busWrite c _ _ _ (wf_busWrite c _ _ _ (wf_busWrite c _ _ _ h))

/-- Storing bytes one after another keeps the canonical form. -/
theorem wf_storeBytes (c : Config) (a : Addr) (bs : List Byte) (m : Memory)
    (h : Memory.wf m = true) : Memory.wf (storeBytes c a bs m) = true := by
  induction bs generalizing a m with
  | nil => exact h
  | cons b bs ih => exact ih (a + 1) _ (wf_busWrite c m a b h)

/-- The memory after reset is in canonical form. -/
theorem wf_reset (c : Config) (a : Addr) : Memory.wf (State.resetAt c a).mem = true := rfl

@[simp] theorem default_mapped (a : Addr) : Config.default.mapped a = true := rfl

/-- At the defaults a Bus read is a memory read (20_memory.md R39). -/
theorem busRead_default (m : Memory) (a : Addr) : busRead Config.default m a = Memory.read m a.toNat := by
  simp [busRead]

/-- At the defaults a Bus write is a memory write (20_memory.md R39). -/
theorem busWrite_default (m : Memory) (a : Addr) (v : Byte) :
    busWrite Config.default m a v = Memory.write m a.toNat v := by
  simp [busWrite]

@[simp] theorem byteAt_eq (s : State) (a : Addr) : byteAt s a = busRead Config.default s.mem a := rfl

end Sys2Proof.Machine
end

