-- ==== Sys2Proof/Laws/State.lean ====
section
/-! SUPPORT. One lemma per field per named update of the state, each true by `rfl` or one case split, so that no later
proof unfolds a record update. -/

namespace Sys2Proof.Machine

variable (s : State)

@[simp] theorem charge_a (n : Nat) : (charge n s).a = s.a := rfl
@[simp] theorem charge_x (n : Nat) : (charge n s).x = s.x := rfl
@[simp] theorem charge_y (n : Nat) : (charge n s).y = s.y := rfl
@[simp] theorem charge_pc (n : Nat) : (charge n s).pc = s.pc := rfl
@[simp] theorem charge_sp (n : Nat) : (charge n s).sp = s.sp := rfl
@[simp] theorem charge_p (n : Nat) : (charge n s).p = s.p := rfl
@[simp] theorem charge_mem (n : Nat) : (charge n s).mem = s.mem := rfl
@[simp] theorem charge_run (n : Nat) : (charge n s).run = s.run := rfl
@[simp] theorem charge_remaining (n : Nat) : (charge n s).remaining = s.remaining - n := rfl

@[simp] theorem memWrite_a (c : Config) (w : Addr) (v : Byte) : (memWrite c w v s).a = s.a := rfl
@[simp] theorem memWrite_x (c : Config) (w : Addr) (v : Byte) : (memWrite c w v s).x = s.x := rfl
@[simp] theorem memWrite_y (c : Config) (w : Addr) (v : Byte) : (memWrite c w v s).y = s.y := rfl
@[simp] theorem memWrite_pc (c : Config) (w : Addr) (v : Byte) : (memWrite c w v s).pc = s.pc := rfl
@[simp] theorem memWrite_sp (c : Config) (w : Addr) (v : Byte) : (memWrite c w v s).sp = s.sp := rfl
@[simp] theorem memWrite_p (c : Config) (w : Addr) (v : Byte) : (memWrite c w v s).p = s.p := rfl
@[simp] theorem memWrite_mem (c : Config) (w : Addr) (v : Byte) : (memWrite c w v s).mem = busWrite c s.mem w v := rfl
@[simp] theorem memWrite_run (c : Config) (w : Addr) (v : Byte) : (memWrite c w v s).run = s.run := rfl
@[simp] theorem memWrite_remaining (c : Config) (w : Addr) (v : Byte) : (memWrite c w v s).remaining = s.remaining := rfl

@[simp] theorem push_a (c : Config) (b : Byte) : (push c b s).a = s.a := rfl
@[simp] theorem push_x (c : Config) (b : Byte) : (push c b s).x = s.x := rfl
@[simp] theorem push_y (c : Config) (b : Byte) : (push c b s).y = s.y := rfl
@[simp] theorem push_pc (c : Config) (b : Byte) : (push c b s).pc = s.pc := rfl
@[simp] theorem push_sp (c : Config) (b : Byte) : (push c b s).sp = s.sp - 1 := rfl
@[simp] theorem push_p (c : Config) (b : Byte) : (push c b s).p = s.p := rfl
@[simp] theorem push_mem (c : Config) (b : Byte) : (push c b s).mem = busWrite c s.mem (stackAddr s.sp) b := rfl
@[simp] theorem push_run (c : Config) (b : Byte) : (push c b s).run = s.run := rfl
@[simp] theorem push_remaining (c : Config) (b : Byte) : (push c b s).remaining = s.remaining := rfl

@[simp] theorem pop_a (c : Config) : (pop c s).2.a = s.a := rfl
@[simp] theorem pop_x (c : Config) : (pop c s).2.x = s.x := rfl
@[simp] theorem pop_y (c : Config) : (pop c s).2.y = s.y := rfl
@[simp] theorem pop_pc (c : Config) : (pop c s).2.pc = s.pc := rfl
@[simp] theorem pop_sp (c : Config) : (pop c s).2.sp = s.sp + 1 := rfl
@[simp] theorem pop_p (c : Config) : (pop c s).2.p = s.p := rfl
@[simp] theorem pop_mem (c : Config) : (pop c s).2.mem = s.mem := rfl
@[simp] theorem pop_run (c : Config) : (pop c s).2.run = s.run := rfl
@[simp] theorem pop_remaining (c : Config) : (pop c s).2.remaining = s.remaining := rfl

@[simp] theorem fetchByte_a (c : Config) : (fetchByte c s).2.a = s.a := rfl
@[simp] theorem fetchByte_x (c : Config) : (fetchByte c s).2.x = s.x := rfl
@[simp] theorem fetchByte_y (c : Config) : (fetchByte c s).2.y = s.y := rfl
@[simp] theorem fetchByte_pc (c : Config) : (fetchByte c s).2.pc = s.pc + 1 := rfl
@[simp] theorem fetchByte_sp (c : Config) : (fetchByte c s).2.sp = s.sp := rfl
@[simp] theorem fetchByte_p (c : Config) : (fetchByte c s).2.p = s.p := rfl
@[simp] theorem fetchByte_mem (c : Config) : (fetchByte c s).2.mem = s.mem := rfl
@[simp] theorem fetchByte_run (c : Config) : (fetchByte c s).2.run = s.run := rfl
@[simp] theorem fetchByte_remaining (c : Config) : (fetchByte c s).2.remaining = s.remaining := rfl

@[simp] theorem loadA_a (v : Byte) : (loadA v s).a = v := rfl
@[simp] theorem loadA_x (v : Byte) : (loadA v s).x = s.x := rfl
@[simp] theorem loadA_y (v : Byte) : (loadA v s).y = s.y := rfl
@[simp] theorem loadA_pc (v : Byte) : (loadA v s).pc = s.pc := rfl
@[simp] theorem loadA_sp (v : Byte) : (loadA v s).sp = s.sp := rfl
@[simp] theorem loadA_p (v : Byte) : (loadA v s).p = setZN v s.p := rfl
@[simp] theorem loadA_mem (v : Byte) : (loadA v s).mem = s.mem := rfl
@[simp] theorem loadA_run (v : Byte) : (loadA v s).run = s.run := rfl
@[simp] theorem loadA_remaining (v : Byte) : (loadA v s).remaining = s.remaining := rfl

@[simp] theorem andA_a (v : Byte) : (andA v s).a = s.a &&& v := rfl
@[simp] theorem andA_x (v : Byte) : (andA v s).x = s.x := rfl
@[simp] theorem andA_y (v : Byte) : (andA v s).y = s.y := rfl
@[simp] theorem andA_pc (v : Byte) : (andA v s).pc = s.pc := rfl
@[simp] theorem andA_sp (v : Byte) : (andA v s).sp = s.sp := rfl
@[simp] theorem andA_p (v : Byte) : (andA v s).p = setZN (s.a &&& v) s.p := rfl
@[simp] theorem andA_mem (v : Byte) : (andA v s).mem = s.mem := rfl
@[simp] theorem andA_run (v : Byte) : (andA v s).run = s.run := rfl
@[simp] theorem andA_remaining (v : Byte) : (andA v s).remaining = s.remaining := rfl

@[simp] theorem addWithCarry_a (v : Byte) : (addWithCarry v s).a = adcResult s.a v (readFlag .c s) := rfl
@[simp] theorem addWithCarry_x (v : Byte) : (addWithCarry v s).x = s.x := rfl
@[simp] theorem addWithCarry_y (v : Byte) : (addWithCarry v s).y = s.y := rfl
@[simp] theorem addWithCarry_pc (v : Byte) : (addWithCarry v s).pc = s.pc := rfl
@[simp] theorem addWithCarry_sp (v : Byte) : (addWithCarry v s).sp = s.sp := rfl
@[simp] theorem addWithCarry_p (v : Byte) : (addWithCarry v s).p = adcFlags s.a v (readFlag .c s) s.p := rfl
@[simp] theorem addWithCarry_mem (v : Byte) : (addWithCarry v s).mem = s.mem := rfl
@[simp] theorem addWithCarry_run (v : Byte) : (addWithCarry v s).run = s.run := rfl
@[simp] theorem addWithCarry_remaining (v : Byte) : (addWithCarry v s).remaining = s.remaining := rfl

@[simp] theorem beginExecute_a (b : Byte) : (beginExecute b s).a = s.a := rfl
@[simp] theorem beginExecute_x (b : Byte) : (beginExecute b s).x = s.x := rfl
@[simp] theorem beginExecute_y (b : Byte) : (beginExecute b s).y = s.y := rfl
@[simp] theorem beginExecute_pc (b : Byte) : (beginExecute b s).pc = s.pc := rfl
@[simp] theorem beginExecute_sp (b : Byte) : (beginExecute b s).sp = s.sp := rfl
@[simp] theorem beginExecute_p (b : Byte) : (beginExecute b s).p = s.p := rfl
@[simp] theorem beginExecute_mem (b : Byte) : (beginExecute b s).mem = s.mem := rfl
@[simp] theorem beginExecute_run (b : Byte) : (beginExecute b s).run = if b.toNat = 0 then .idle else .running := rfl
@[simp] theorem beginExecute_remaining (b : Byte) : (beginExecute b s).remaining = b.toNat := rfl

@[simp] theorem settle_a : (settle s).a = s.a := by unfold settle; split <;> rfl
@[simp] theorem settle_x : (settle s).x = s.x := by unfold settle; split <;> rfl
@[simp] theorem settle_y : (settle s).y = s.y := by unfold settle; split <;> rfl
@[simp] theorem settle_pc : (settle s).pc = s.pc := by unfold settle; split <;> rfl
@[simp] theorem settle_sp : (settle s).sp = s.sp := by unfold settle; split <;> rfl
@[simp] theorem settle_p : (settle s).p = s.p := by unfold settle; split <;> rfl
@[simp] theorem settle_mem : (settle s).mem = s.mem := by unfold settle; split <;> rfl
@[simp] theorem settle_remaining : (settle s).remaining = s.remaining := by unfold settle; split <;> rfl
@[simp] theorem settle_run : (settle s).run = if s.remaining ≤ 0 then .idle else s.run := by
  unfold settle; split <;> rfl

@[simp] theorem enterBreak_a (c : Config) : (enterBreak c s).a = s.a := rfl
@[simp] theorem enterBreak_x (c : Config) : (enterBreak c s).x = s.x := rfl
@[simp] theorem enterBreak_y (c : Config) : (enterBreak c s).y = s.y := rfl
@[simp] theorem enterBreak_sp (c : Config) : (enterBreak c s).sp = s.sp - 3 := by
  show s.sp - 1 - 1 - 1 = s.sp - 3
  rw [BitVec.sub_sub, BitVec.sub_sub]; rfl
@[simp] theorem enterBreak_p (c : Config) : (enterBreak c s).p = setFlag .i true (setFlag .b false (setFlag .b true s.p)) := rfl
/-- The three pushes of the trap entry (45_system.md R135). -/
@[simp] theorem enterBreak_mem (c : Config) : (enterBreak c s).mem =
    busWrite c (busWrite c (busWrite c s.mem (stackAddr s.sp) (hiByte (s.pc + 2)))
      (stackAddr (s.sp - 1)) (loByte (s.pc + 2))) (stackAddr (s.sp - 2)) (setFlag .b true s.p) := by
  have hsp : s.sp - 1 - 1 = s.sp - 2 := by rw [BitVec.sub_sub]; rfl
  have hp : setFlag .b true s.p ||| flagMask .u = setFlag .b true s.p := by
    simp [setFlag, putFlag, BitVec.or_assoc]
  rw [← hsp]
  show busWrite c _ _ (setFlag .b true s.p ||| flagMask .u) = _
  rw [hp]
  rfl
@[simp] theorem enterBreak_run (c : Config) : (enterBreak c s).run = s.run := rfl
@[simp] theorem enterBreak_remaining (c : Config) : (enterBreak c s).remaining = s.remaining := rfl
/-- PC after the trap entry is the vector as the memory holds it after the pushes (45_system.md R135). -/
@[simp] theorem enterBreak_pc (c : Config) : (enterBreak c s).pc =
    wordOf (busRead c (enterBreak c s).mem 0xFFFE) (busRead c (enterBreak c s).mem 0xFFFF) := rfl

@[simp] theorem reset_mem (c : Config) (w : Addr) : (State.resetAt c w).mem = [] := rfl
@[simp] theorem reset_pc (c : Config) (w : Addr) : (State.resetAt c w).pc = w := rfl
@[simp] theorem reset_sp (c : Config) (w : Addr) : (State.resetAt c w).sp = c.spReset := rfl
@[simp] theorem reset_p (c : Config) (w : Addr) : (State.resetAt c w).p = 0x24 := rfl
@[simp] theorem reset_run (c : Config) (w : Addr) : (State.resetAt c w).run = .idle := rfl

end Sys2Proof.Machine
end

