-- ==== Sys2Proof/Laws/Exec.lean ====
section
/-! SUPPORT. What each arm of `exec` answers, over the shared operations and with its row of
40_execution.md R71 read off: the lemmas later proofs cite instead of unfolding a meaning. -/

namespace Sys2Proof.Machine

variable (s : State)

/-- At the defaults ASL zp,X shifts the indexed byte (43_alu.md R120). -/
@[simp] theorem eaAslZpx_default (zp8 : Byte) : eaAslZpx Config.default zp8 s = eaZpx zp8 s := rfl

/-- The default costs are all at least 1 (40_execution.md R71), which bounds an execute call. -/
theorem default_costsPositive : Config.default.CostsPositive := by
  have h : ∀ r ∈ costTable, 1 ≤ r.2.1 := by decide
  intro op
  show 1 ≤ (costRow op).1
  unfold costRow
  split
  · exact h _ (List.mem_of_find?_eq_some ‹_›)
  · exact Nat.le_refl 1

theorem exec_ldaImm (imm8 : Byte) : exec (.ldaImm imm8) s =
    .next (charge 2 (loadA imm8 s)) := rfl
theorem exec_ldaZp (zp8 : Byte) : exec (.ldaZp zp8) s =
    .next (charge 3 (loadA (byteAt s (eaZp zp8).addr) s)) := rfl
theorem exec_ldaZpx (zp8 : Byte) : exec (.ldaZpx zp8) s =
    .next (charge 4 (loadA (byteAt s (eaZpx zp8 s).addr) s)) := rfl
theorem exec_ldaAbs (abs16 : Addr) : exec (.ldaAbs abs16) s =
    .next (charge 4 (loadA (byteAt s (eaAbs abs16).addr) s)) := rfl
theorem exec_ldaAbsx (abs16 : Addr) : exec (.ldaAbsx abs16) s =
    .next (charge (4 + (eaAbsx abs16 s).crossed.toNat) (loadA (byteAt s (eaAbsx abs16 s).addr) s)) := rfl
theorem exec_ldaAbsy (abs16 : Addr) : exec (.ldaAbsy abs16) s =
    .next (charge (4 + (eaAbsy abs16 s).crossed.toNat) (loadA (byteAt s (eaAbsy abs16 s).addr) s)) := rfl
theorem exec_ldaIndx (zp8 : Byte) : exec (.ldaIndx zp8) s =
    .next (charge 6 (loadA (byteAt s (eaIndx Config.default zp8 s).addr) s)) := rfl
theorem exec_ldaIndy (zp8 : Byte) : exec (.ldaIndy zp8) s =
    .next (charge (5 + (eaIndy Config.default zp8 s).crossed.toNat) (loadA (byteAt s (eaIndy Config.default zp8 s).addr) s)) := rfl
theorem exec_staZp (zp8 : Byte) : exec (.staZp zp8) s =
    .next (charge 3 (memWrite Config.default (eaZp zp8).addr s.a s)) := rfl
theorem exec_staZpx (zp8 : Byte) : exec (.staZpx zp8) s =
    .next (charge 4 (memWrite Config.default (eaZpx zp8 s).addr s.a s)) := rfl
theorem exec_staAbs (abs16 : Addr) : exec (.staAbs abs16) s =
    .next (charge 4 (memWrite Config.default (eaAbs abs16).addr s.a s)) := rfl
theorem exec_staAbsx (abs16 : Addr) : exec (.staAbsx abs16) s =
    .next (charge (4 + (eaAbsx abs16 s).crossed.toNat) (memWrite Config.default (eaAbsx abs16 s).addr s.a s)) := rfl
theorem exec_staAbsy (abs16 : Addr) : exec (.staAbsy abs16) s =
    .next (charge (4 + (eaAbsy abs16 s).crossed.toNat) (memWrite Config.default (eaAbsy abs16 s).addr s.a s)) := rfl
theorem exec_staIndx (zp8 : Byte) : exec (.staIndx zp8) s =
    .next (charge 6 (memWrite Config.default (eaIndx Config.default zp8 s).addr s.a s)) := rfl
theorem exec_staIndy (zp8 : Byte) : exec (.staIndy zp8) s =
    .next (charge (5 + (eaIndy Config.default zp8 s).crossed.toNat) (memWrite Config.default (eaIndy Config.default zp8 s).addr s.a s)) := rfl
theorem exec_adcImm (imm8 : Byte) : exec (.adcImm imm8) s =
    .next (charge 2 (addWithCarry imm8 s)) := rfl
theorem exec_andImm (imm8 : Byte) : exec (.andImm imm8) s =
    .next (charge 2 (andA imm8 s)) := rfl
theorem exec_andZp (zp8 : Byte) : exec (.andZp zp8) s =
    .next (charge 3 (andA (byteAt s (eaZp zp8).addr) s)) := rfl
theorem exec_andZpx (zp8 : Byte) : exec (.andZpx zp8) s =
    .next (charge 4 (andA (byteAt s (eaZpx zp8 s).addr) s)) := rfl
theorem exec_andAbs (abs16 : Addr) : exec (.andAbs abs16) s =
    .next (charge 4 (andA (byteAt s (eaAbs abs16).addr) s)) := rfl
theorem exec_andAbsx (abs16 : Addr) : exec (.andAbsx abs16) s =
    .next (charge (4 + (eaAbsx abs16 s).crossed.toNat) (andA (byteAt s (eaAbsx abs16 s).addr) s)) := rfl
theorem exec_andAbsy (abs16 : Addr) : exec (.andAbsy abs16) s =
    .next (charge (4 + (eaAbsy abs16 s).crossed.toNat) (andA (byteAt s (eaAbsy abs16 s).addr) s)) := rfl
theorem exec_andIndx (zp8 : Byte) : exec (.andIndx zp8) s =
    .next (charge 6 (andA (byteAt s (eaIndx Config.default zp8 s).addr) s)) := rfl
theorem exec_andIndy (zp8 : Byte) : exec (.andIndy zp8) s =
    .next (charge (5 + (eaIndy Config.default zp8 s).crossed.toNat) (andA (byteAt s (eaIndy Config.default zp8 s).addr) s)) := rfl
theorem exec_aslAcc : exec .aslAcc s =
    .next (charge 2 { s with a := aslResult s.a, p := aslFlags s.a s.p }) := rfl
theorem exec_aslZp (zp8 : Byte) : exec (.aslZp zp8) s =
    .next (charge 5
      { memWrite Config.default (eaZp zp8).addr (aslResult (byteAt s (eaZp zp8).addr)) s with
        p := aslFlags (byteAt s (eaZp zp8).addr) s.p }) := rfl
theorem exec_aslZpx (zp8 : Byte) : exec (.aslZpx zp8) s =
    .next (charge 6
      { memWrite Config.default (eaZpx zp8 s).addr (aslResult (byteAt s (eaZpx zp8 s).addr)) s with
        p := aslFlags (byteAt s (eaZpx zp8 s).addr) s.p }) := rfl
theorem exec_aslAbs (abs16 : Addr) : exec (.aslAbs abs16) s =
    .next (charge 6
      { memWrite Config.default (eaAbs abs16).addr (aslResult (byteAt s (eaAbs abs16).addr)) s with
        p := aslFlags (byteAt s (eaAbs abs16).addr) s.p }) := rfl
theorem exec_bitZp (zp8 : Byte) : exec (.bitZp zp8) s =
    .next (charge 3 { s with p := bitFlags s.a (byteAt s (eaZp zp8).addr) s.p }) := rfl
theorem exec_bitAbs (abs16 : Addr) : exec (.bitAbs abs16) s =
    .next (charge 4 { s with p := bitFlags s.a (byteAt s (eaAbs abs16).addr) s.p }) := rfl
theorem exec_bpl (rel8 : Byte) : exec (.bpl rel8) s =
    .next (if readFlag .n s = false then
      charge (3 + (pageCross s.pc (relTarget rel8 s)).toNat) { s with pc := relTarget rel8 s }
      else charge 2 s) := rfl
theorem exec_bmi (rel8 : Byte) : exec (.bmi rel8) s =
    .next (if readFlag .n s = true then
      charge (3 + (pageCross s.pc (relTarget rel8 s)).toNat) { s with pc := relTarget rel8 s }
      else charge 2 s) := rfl
theorem exec_bvc (rel8 : Byte) : exec (.bvc rel8) s =
    .next (if readFlag .v s = false then
      charge (3 + (pageCross s.pc (relTarget rel8 s)).toNat) { s with pc := relTarget rel8 s }
      else charge 2 s) := rfl
theorem exec_bvs (rel8 : Byte) : exec (.bvs rel8) s =
    .next (if readFlag .v s = true then
      charge (3 + (pageCross s.pc (relTarget rel8 s)).toNat) { s with pc := relTarget rel8 s }
      else charge 2 s) := rfl
theorem exec_bcc (rel8 : Byte) : exec (.bcc rel8) s =
    .next (if readFlag .c s = false then
      charge (3 + (pageCross s.pc (relTarget rel8 s)).toNat) { s with pc := relTarget rel8 s }
      else charge 2 s) := rfl
theorem exec_bcs (rel8 : Byte) : exec (.bcs rel8) s =
    .next (if readFlag .c s = true then
      charge (3 + (pageCross s.pc (relTarget rel8 s)).toNat) { s with pc := relTarget rel8 s }
      else charge 2 s) := rfl
theorem exec_bne (rel8 : Byte) : exec (.bne rel8) s =
    .next (if readFlag .z s = false then
      charge (3 + (pageCross s.pc (relTarget rel8 s)).toNat) { s with pc := relTarget rel8 s }
      else charge 2 s) := rfl
theorem exec_beq (rel8 : Byte) : exec (.beq rel8) s =
    .next (if readFlag .z s = true then
      charge (3 + (pageCross s.pc (relTarget rel8 s)).toNat) { s with pc := relTarget rel8 s }
      else charge 2 s) := rfl
theorem exec_brk : exec .brk s =
    .next (charge 7 (enterBreak Config.default s)) := rfl
theorem exec_unrecognised (opcode : Byte) : exec (.unrecognised opcode) s =
    .next (charge 1 s) := rfl

/-- An instruction leaves the run state alone and keeps the memory's canonical form. -/
theorem exec_run_wf (i : Instr) (t : State) (h : exec i s = .next t) :
    t.run = s.run ∧ (Memory.wf s.mem = true → Memory.wf t.mem = true) := by
  cases i <;>
    simp only [exec_ldaImm, exec_ldaZp, exec_ldaZpx, exec_ldaAbs, exec_ldaAbsx, exec_ldaAbsy,
      exec_ldaIndx, exec_ldaIndy, exec_staZp, exec_staZpx, exec_staAbs, exec_staAbsx,
      exec_staAbsy, exec_staIndx, exec_staIndy, exec_adcImm, exec_andImm, exec_andZp,
      exec_andZpx, exec_andAbs, exec_andAbsx, exec_andAbsy, exec_andIndx, exec_andIndy,
      exec_aslAcc, exec_aslZp, exec_aslZpx, exec_aslAbs, exec_bitZp, exec_bitAbs, exec_bpl,
      exec_bmi, exec_bvc, exec_bvs, exec_bcc, exec_bcs, exec_bne, exec_beq, exec_brk,
      exec_unrecognised, Host.Outcome.next.injEq] at h <;>
    subst h
  case bpl | bmi | bvc | bvs | bcc | bcs | bne | beq => split <;> exact ⟨rfl, id⟩
  case brk =>
    rw [charge_run, charge_mem, enterBreak_run]
    exact ⟨rfl, wf_enterBreak _ _⟩
  all_goals
    simp only [charge_run, charge_mem, loadA_run, loadA_mem, andA_run, andA_mem, memWrite_run,
      memWrite_mem, addWithCarry_run, addWithCarry_mem]
    first
      | exact ⟨trivial, id⟩
      | exact ⟨trivial, wf_busWrite _ _ _ _⟩

end Sys2Proof.Machine
end

