-- ==== Sys2Proof/Laws/Flags.lean ====
section
/-! SUPPORT. What each flag operation does, one flag at a time (10_state.md §5). -/

namespace Sys2Proof.Machine

/-- `putFlag` writes its flag and keeps the others. -/
theorem storedFlag_putFlag (f g : Flag) (b : Bool) (p : Byte) :
    storedFlag g (putFlag f b p) = if g = f then b else storedFlag g p := by
  cases f <;> cases g <;> cases b <;>
    simp [storedFlag, putFlag, flagMask, flagIndex]

/-- `SetFlag` forces U, writes its flag and keeps the others (10_state.md R32). -/
@[simp] theorem storedFlag_setFlag (f g : Flag) (b : Bool) (p : Byte) :
    storedFlag g (setFlag f b p) =
      if g = .u then true else if g = f then b else storedFlag g p := by
  simp [setFlag, storedFlag_putFlag]

/-- `ToggleFlag` forces U, inverts its flag and keeps the others (10_state.md R32). -/
@[simp] theorem storedFlag_toggleFlag (f g : Flag) (p : Byte) :
    storedFlag g (toggleFlag f p) =
      if g = .u then true else if g = f then !storedFlag f p else storedFlag g p := by
  simp [toggleFlag, storedFlag_putFlag]

/-- A read flag is its stored bit, but for U, which reads 1 (10_state.md R29). -/
theorem readFlag_eq (f : Flag) (s : State) :
    readFlag f s = if f = .u then true else storedFlag f s.p := by
  cases f <;> simp [readFlag, readP, storedFlag, flagMask, flagIndex]

/-- `SetZN`, one flag at a time (42_load_store.md R93). -/
@[simp] theorem storedFlag_setZN (g : Flag) (v p : Byte) :
    storedFlag g (setZN v p) =
      if g = .u then true else if g = .n then bit7 v
      else if g = .z then (v == 0x00) else storedFlag g p := by
  cases g <;> simp [setZN]

/-- The flags of ADC, one at a time (43_alu.md R109). -/
@[simp] theorem storedFlag_adcFlags (g : Flag) (a v : Byte) (k : Bool) (p : Byte) :
    storedFlag g (adcFlags a v k p) =
      if g = .u then true
      else if g = .v then adcOverflow a v (adcResult a v k)
      else if g = .n then bit7 (adcResult a v k)
      else if g = .z then (adcResult a v k == 0x00)
      else if g = .c then decide (0xFF < adcSum a v k)
      else storedFlag g p := by
  cases g <;> simp [adcFlags]

/-- The flags of ASL, one at a time (43_alu.md R118). -/
@[simp] theorem storedFlag_aslFlags (g : Flag) (t p : Byte) :
    storedFlag g (aslFlags t p) =
      if g = .u then true else if g = .n then bit7 (aslResult t)
      else if g = .z then (aslResult t == 0x00)
      else if g = .c then aslCarry t else storedFlag g p := by
  cases g <;> simp [aslFlags]

/-- The flags of BIT, one at a time (43_alu.md R122). -/
@[simp] theorem storedFlag_bitFlags (g : Flag) (a m p : Byte) :
    storedFlag g (bitFlags a m p) =
      if g = .u then true else if g = .v then bit6 m else if g = .n then bit7 m
      else if g = .z then ((a &&& m) == 0x00) else storedFlag g p := by
  cases g <;> simp [bitFlags]

end Sys2Proof.Machine
end

