-- ==== Sys2Proof/Laws/Operands.lean ====
section
/-! SUPPORT. The numbers behind the addresses and the results: what each address and arithmetic operation
gives, as a natural number or an integer, so that no later proof unfolds one. -/

namespace Sys2Proof.Machine

/-- `zext_16` keeps the value (00_scope.md R10). -/
theorem zext16_toNat (v : Byte) : (zext16 v).toNat = v.toNat := by
  have := v.isLt
  simp [zext16]
  omega

/-- Distinct zero-page offsets are distinct addresses. -/
theorem zext16_inj (u v : Byte) : zext16 u = zext16 v ↔ u = v := by
  rw [← BitVec.toNat_inj, zext16_toNat, zext16_toNat, BitVec.toNat_inj]

/-- A branch target counts the signed offset from PC, in 16 bits (41_addressing.md R89). -/
theorem relTarget_toNat (r : Byte) (s : State) :
    ((relTarget r s).toNat : Int) = (s.pc.toNat + r.toInt) % 65536 := by
  have h1 := s.pc.isLt
  have h2 := r.isLt
  simp only [relTarget, sext16, BitVec.toNat_add, BitVec.toNat_signExtend]
  rw [BitVec.toInt_eq_msb_cond, BitVec.toNat_setWidth]
  cases h : r.msb
  · simp only [Bool.false_eq_true, if_false]
    omega
  · have := (BitVec.msb_eq_true_iff_two_mul_ge).1 h
    simp only [if_true]
    omega

/-- The stack address of SP lies in page 1 (20_memory.md R52). -/
theorem stackAddr_toNat (sp : Byte) : (stackAddr sp).toNat = 0x0100 + sp.toNat := by
  have := sp.isLt
  simp [stackAddr]
  omega

/-- Distinct stack pointers are distinct addresses. -/
theorem stackAddr_inj (a b : Byte) : stackAddr a = stackAddr b ↔ a = b := by
  rw [← BitVec.toNat_inj, stackAddr_toNat, stackAddr_toNat, ← BitVec.toNat_inj]
  omega

/-- No stack address is one of the two vector addresses. -/
theorem vector_ne_stackAddr (sp : Byte) :
    (0xFFFE : Addr) ≠ stackAddr sp ∧ (0xFFFF : Addr) ≠ stackAddr sp := by
  have := sp.isLt
  constructor <;> intro h <;> have h := congrArg BitVec.toNat h <;>
    rw [stackAddr_toNat] at h <;> simp at h <;> omega

/-- Bit 7 of a byte says that it is at least 128. -/
theorem bit7_eq (v : Byte) : bit7 v = decide (128 ≤ v.toNat) := by
  have : bit7 v = v.msb := by simp [bit7, BitVec.msb_eq_getLsbD_last]
  rw [this, BitVec.msb_eq_decide]

/-- The zero test of a byte is that of its value. -/
theorem eqZero_eq (v : Byte) : (v == 0x00) = decide (v.toNat = 0) := by
  rw [Bool.eq_iff_iff]
  simp [← BitVec.toNat_inj]

/-- ADC keeps the low byte of the sum (43_alu.md R109). -/
theorem adcResult_toNat (a v : Byte) (k : Bool) :
    (adcResult a v k).toNat = (a.toNat + v.toNat + k.toNat) % 256 := by
  simp [adcResult, adcSum]

/-- ADC overflows when the operands share bit 7 and the result does not (43_alu.md R109). -/
theorem adcOverflow_iff (a v r : Byte) :
    adcOverflow a v r = true ↔ a.getLsbD 7 = v.getLsbD 7 ∧ r.getLsbD 7 ≠ a.getLsbD 7 := by
  have h80 : ∀ w : Byte, (w &&& 0x80 = 0) ↔ w.getLsbD 7 = false := by decide
  simp only [adcOverflow, bne_iff_ne, ne_eq, h80]
  simp only [BitVec.getLsbD_and, BitVec.getLsbD_xor]
  cases a.getLsbD 7 <;> cases v.getLsbD 7 <;> cases r.getLsbD 7 <;> simp

/-- ASL keeps the low byte of the double (43_alu.md R118). -/
theorem aslResult_toNat (t : Byte) : (aslResult t).toNat = t.toNat * 2 % 256 := by
  simp [aslResult]

/-- ASL's carry is bit 8 of the double (43_alu.md R118). -/
theorem aslCarry_eq (t : Byte) : aslCarry t = decide (256 ≤ t.toNat * 2) := by
  have := t.isLt
  simp only [aslCarry, Nat.testBit_eq_decide_div_mod_eq]
  rw [Bool.eq_iff_iff]
  simp
  omega

end Sys2Proof.Machine
end

