-- ==== Sys2Proof/Laws/PerInstr.lean ====
section
/-! SUPPORT. One statement about the instruction as syntax, per constructor. -/

namespace Sys2Proof.Laws.EncodedLength

/-- An instruction's bytes are as many as its mode's format says (30_encoding.md R56). -/
def Statement (i : Instr) : Prop := (encode i).length = instrLength i

theorem ldaImm (imm8 : Byte) : Statement (.ldaImm imm8) := rfl
theorem ldaZp (zp8 : Byte) : Statement (.ldaZp zp8) := rfl
theorem ldaZpx (zp8 : Byte) : Statement (.ldaZpx zp8) := rfl
theorem ldaAbs (abs16 : Addr) : Statement (.ldaAbs abs16) := rfl
theorem ldaAbsx (abs16 : Addr) : Statement (.ldaAbsx abs16) := rfl
theorem ldaAbsy (abs16 : Addr) : Statement (.ldaAbsy abs16) := rfl
theorem ldaIndx (zp8 : Byte) : Statement (.ldaIndx zp8) := rfl
theorem ldaIndy (zp8 : Byte) : Statement (.ldaIndy zp8) := rfl
theorem staZp (zp8 : Byte) : Statement (.staZp zp8) := rfl
theorem staZpx (zp8 : Byte) : Statement (.staZpx zp8) := rfl
theorem staAbs (abs16 : Addr) : Statement (.staAbs abs16) := rfl
theorem staAbsx (abs16 : Addr) : Statement (.staAbsx abs16) := rfl
theorem staAbsy (abs16 : Addr) : Statement (.staAbsy abs16) := rfl
theorem staIndx (zp8 : Byte) : Statement (.staIndx zp8) := rfl
theorem staIndy (zp8 : Byte) : Statement (.staIndy zp8) := rfl
theorem adcImm (imm8 : Byte) : Statement (.adcImm imm8) := rfl
theorem andImm (imm8 : Byte) : Statement (.andImm imm8) := rfl
theorem andZp (zp8 : Byte) : Statement (.andZp zp8) := rfl
theorem andZpx (zp8 : Byte) : Statement (.andZpx zp8) := rfl
theorem andAbs (abs16 : Addr) : Statement (.andAbs abs16) := rfl
theorem andAbsx (abs16 : Addr) : Statement (.andAbsx abs16) := rfl
theorem andAbsy (abs16 : Addr) : Statement (.andAbsy abs16) := rfl
theorem andIndx (zp8 : Byte) : Statement (.andIndx zp8) := rfl
theorem andIndy (zp8 : Byte) : Statement (.andIndy zp8) := rfl
theorem aslAcc : Statement .aslAcc := rfl
theorem aslZp (zp8 : Byte) : Statement (.aslZp zp8) := rfl
theorem aslZpx (zp8 : Byte) : Statement (.aslZpx zp8) := rfl
theorem aslAbs (abs16 : Addr) : Statement (.aslAbs abs16) := rfl
theorem bitZp (zp8 : Byte) : Statement (.bitZp zp8) := rfl
theorem bitAbs (abs16 : Addr) : Statement (.bitAbs abs16) := rfl
theorem bpl (rel8 : Byte) : Statement (.bpl rel8) := rfl
theorem bmi (rel8 : Byte) : Statement (.bmi rel8) := rfl
theorem bvc (rel8 : Byte) : Statement (.bvc rel8) := rfl
theorem bvs (rel8 : Byte) : Statement (.bvs rel8) := rfl
theorem bcc (rel8 : Byte) : Statement (.bcc rel8) := rfl
theorem bcs (rel8 : Byte) : Statement (.bcs rel8) := rfl
theorem bne (rel8 : Byte) : Statement (.bne rel8) := rfl
theorem beq (rel8 : Byte) : Statement (.beq rel8) := rfl
theorem brk : Statement .brk := rfl
theorem unrecognised (opcode : Byte) : Statement (.unrecognised opcode) := rfl

end Sys2Proof.Laws.EncodedLength
end

