-- ==== Sys2Proof/Tests/Slice0.lean ====
section
/-! SUPPORT. The tests: the WellFormed smoke, decoding of words written out from 30_encoding.md R60, single
steps on the vectors of spec/95_test_vectors.md (named beside each), and a witness for the
hypotheses of every obligation that has some. -/

namespace Sys2Proof.Tests

open Sys2Proof Sys2Proof.Machine

/-! ### Well-formedness -/

/-- 0xA9 has a row in 30_encoding.md R60, so no unrecognised opcode is this byte. -/
theorem test_wellFormed_refuses_recognised : (Instr.unrecognised 0xA9).WellFormed = false := by decide

/-- 0xFF has none (vector UN-1). -/
theorem test_wellFormed_admits_unrecognised : (Instr.unrecognised 0xFF).WellFormed = true := by decide

/-! ### Decoding: one word per constructor, from 30_encoding.md R56 and R60 -/

theorem test_decode_lda :
    decode [0xA9, 0x80] = .ok (.ldaImm 0x80) [] ∧
    decode [0xA5, 0x10] = .ok (.ldaZp 0x10) [] ∧
    decode [0xB5, 0xFF] = .ok (.ldaZpx 0xFF) [] ∧
    decode [0xAD, 0x34, 0x12] = .ok (.ldaAbs 0x1234) [] ∧
    decode [0xBD, 0xFF, 0x03] = .ok (.ldaAbsx 0x03FF) [] ∧
    decode [0xB9, 0xF0, 0x12] = .ok (.ldaAbsy 0x12F0) [] ∧
    decode [0xA1, 0xFE] = .ok (.ldaIndx 0xFE) [] ∧
    decode [0xB1, 0x10] = .ok (.ldaIndy 0x10) [] := by decide

theorem test_decode_sta :
    decode [0x85, 0x10] = .ok (.staZp 0x10) [] ∧
    decode [0x95, 0xFF] = .ok (.staZpx 0xFF) [] ∧
    decode [0x8D, 0x00, 0x30] = .ok (.staAbs 0x3000) [] ∧
    decode [0x9D, 0xFF, 0x03] = .ok (.staAbsx 0x03FF) [] ∧
    decode [0x99, 0xF0, 0x12] = .ok (.staAbsy 0x12F0) [] ∧
    decode [0x81, 0xFE] = .ok (.staIndx 0xFE) [] ∧
    decode [0x91, 0x10] = .ok (.staIndy 0x10) [] := by decide

theorem test_decode_adc_and :
    decode [0x69, 0x01] = .ok (.adcImm 0x01) [] ∧
    decode [0x29, 0x0F] = .ok (.andImm 0x0F) [] ∧
    decode [0x25, 0x10] = .ok (.andZp 0x10) [] ∧
    decode [0x35, 0xFF] = .ok (.andZpx 0xFF) [] ∧
    decode [0x2D, 0x34, 0x12] = .ok (.andAbs 0x1234) [] ∧
    decode [0x3D, 0xFF, 0x03] = .ok (.andAbsx 0x03FF) [] ∧
    decode [0x39, 0x00, 0x03] = .ok (.andAbsy 0x0300) [] ∧
    decode [0x21, 0xFE] = .ok (.andIndx 0xFE) [] ∧
    decode [0x31, 0x10] = .ok (.andIndy 0x10) [] := by decide

theorem test_decode_asl_bit :
    decode [0x0A] = .ok (.aslAcc) [] ∧
    decode [0x06, 0x10] = .ok (.aslZp 0x10) [] ∧
    decode [0x16, 0x10] = .ok (.aslZpx 0x10) [] ∧
    decode [0x0E, 0x34, 0x12] = .ok (.aslAbs 0x1234) [] ∧
    decode [0x24, 0x20] = .ok (.bitZp 0x20) [] ∧
    decode [0x2C, 0x34, 0x12] = .ok (.bitAbs 0x1234) [] := by decide

theorem test_decode_branch :
    decode [0x10, 0x10] = .ok (.bpl 0x10) [] ∧
    decode [0x30, 0x10] = .ok (.bmi 0x10) [] ∧
    decode [0x50, 0x10] = .ok (.bvc 0x10) [] ∧
    decode [0x70, 0x10] = .ok (.bvs 0x10) [] ∧
    decode [0x90, 0x10] = .ok (.bcc 0x10) [] ∧
    decode [0xB0, 0x10] = .ok (.bcs 0x10) [] ∧
    decode [0xD0, 0xFC] = .ok (.bne 0xFC) [] ∧
    decode [0xF0, 0x10] = .ok (.beq 0x10) [] := by decide

theorem test_decode_system :
    decode [0x00] = .ok (.brk) [] ∧
    decode [0xFF] = .ok (.unrecognised 0xFF) [] ∧
    decode [0xA2] = .ok (.unrecognised 0xA2) [] := by decide

theorem test_decode_refuses_short_input :
    decode [] = .rejected .noOpcode ∧ decode [0xA9] = .rejected (.missingOperand 0xA9) ∧
    decode [0xAD, 0x34] = .rejected (.missingOperand 0xAD) := by decide

/-- The operand word's low byte is the second byte of the row's bits. -/
theorem test_decodeTableWord : decodeTableWord 24 0x1234AD = some (.ldaAbs 0x1234) ∧
    decodeTableWord 8 0xAD = some (.ldaAbs 0x0000) := by decide

/-! ### Single steps: the vectors of spec/95_test_vectors.md -/

/-- The state of Part 2's vectors: after `reset(0x0200)`, inside a call with budget 20. -/
def start (mem : Memory) : State :=
  { State.resetAt Config.default 0x0200 with mem := mem, run := .running, remaining := 20 }

/-- A field of the state after one step. -/
def after {α : Type} (f : State → α) (s : State) : Option α :=
  match step s with
  | .next t => some (f t)
  | .fault _ => none
  | .refused _ => none

/-- A, P, PC and the cycles used. -/
def regs (t : State) : Byte × Byte × Addr × Int := (t.a, t.p, t.pc, 20 - t.remaining)

/-- The byte at an address, P, PC and the cycles used. -/
def cell (a : Addr) (t : State) : Byte × Byte × Addr × Int := (byteAt t a, t.p, t.pc, 20 - t.remaining)

/-- LDA-1. -/
theorem test_lda_imm_zero :
    after regs (start [(0x0200, 0xA9)]) =
      some (0x00, 0x26, 0x0202, 2) := by decide

/-- LDA-14. -/
theorem test_lda_imm_keeps_c_v :
    after regs { start [(0x0200, 0xA9)] with p := 0x65 } =
      some (0x00, 0x67, 0x0202, 2) := by decide

/-- LDA-3. -/
theorem test_lda_zp :
    after regs (start [(0x0010, 0x7F), (0x0200, 0xA5), (0x0201, 0x10)]) =
      some (0x7F, 0x24, 0x0202, 3) := by decide

/-- LDA-4. -/
theorem test_lda_zpx_wraps :
    after regs { start [(0x0001, 0x55), (0x0101, 0x66), (0x0200, 0xB5), (0x0201, 0xFF)] with x := 0x02 } =
      some (0x55, 0x24, 0x0202, 4) := by decide

/-- LDA-5. -/
theorem test_lda_abs :
    after regs { start [(0x0200, 0xAD), (0x0201, 0x34), (0x0202, 0x12)] with a := 0x11 } =
      some (0x00, 0x26, 0x0203, 4) := by decide

/-- LDA-6. -/
theorem test_lda_absx_crosses :
    after regs { start [(0x0200, 0xBD), (0x0201, 0xFF), (0x0202, 0x03), (0x0400, 0x01)] with x := 0x01 } =
      some (0x01, 0x24, 0x0203, 5) := by decide

/-- LDA-9. -/
theorem test_lda_absx_wraps :
    after regs { start [(0x0000, 0x42), (0x0200, 0xBD), (0x0201, 0xFF), (0x0202, 0xFF)] with x := 0x01 } =
      some (0x42, 0x24, 0x0203, 5) := by decide

/-- LDA-8. -/
theorem test_lda_absy_crosses :
    after regs { start [(0x0200, 0xB9), (0x0201, 0xF0), (0x0202, 0x12), (0x1310, 0xFF)] with y := 0x20 } =
      some (0xFF, 0xA4, 0x0203, 5) := by decide

/-- LDA-10. -/
theorem test_lda_indx_pointer_wraps :
    after regs { start [(0x0000, 0x12), (0x00FF, 0x34), (0x0200, 0xA1), (0x0201, 0xFE), (0x1234, 0x99)] with x := 0x01 } =
      some (0x99, 0xA4, 0x0202, 6) := by decide

/-- LDA-11. -/
theorem test_lda_indx_index_wraps :
    after regs { start [(0x0005, 0x30), (0x0200, 0xA1), (0x0201, 0x05), (0x3000, 0x07)] with x := 0xFF } =
      some (0x07, 0x24, 0x0202, 6) := by decide

/-- LDA-12. -/
theorem test_lda_indy_crosses :
    after regs { start [(0x0010, 0xF0), (0x0011, 0x12), (0x0200, 0xB1), (0x0201, 0x10)] with y := 0x20 } =
      some (0x00, 0x26, 0x0202, 6) := by decide

/-- LDA-13. -/
theorem test_lda_indy_pointer_wraps :
    after regs (start [(0x0000, 0x30), (0x0200, 0xB1), (0x0201, 0xFF), (0x3000, 0x01)]) =
      some (0x01, 0x24, 0x0202, 5) := by decide

/-- STA-1. -/
theorem test_sta_zp :
    after (cell 0x0010) { start [(0x0200, 0x85), (0x0201, 0x10)] with a := 0x5A } =
      some (0x5A, 0x24, 0x0202, 3) := by decide

/-- STA-11, over a byte that was 0xFF. -/
theorem test_sta_zp_zero_sets_no_flag :
    after (cell 0x0010) { start [(0x0010, 0xFF), (0x0200, 0x85), (0x0201, 0x10)] with a := 0x00 } =
      some (0x00, 0x24, 0x0202, 3) := by decide

/-- STA-2. -/
theorem test_sta_zpx_wraps :
    after (cell 0x0001) { start [(0x0200, 0x95), (0x0201, 0xFF)] with x := 0x02, a := 0x5A } =
      some (0x5A, 0x24, 0x0202, 4) := by decide

/-- STA-12. -/
theorem test_sta_abs_overwrites_its_operand :
    after (cell 0x0201) { start [(0x0200, 0x8D), (0x0201, 0x01), (0x0202, 0x02)] with a := 0x5A } =
      some (0x5A, 0x24, 0x0203, 4) := by decide

/-- STA-4. -/
theorem test_sta_absx_crosses :
    after (cell 0x0400) { start [(0x0200, 0x9D), (0x0201, 0xFF), (0x0202, 0x03)] with x := 0x01, a := 0x5A } =
      some (0x5A, 0x24, 0x0203, 5) := by decide

/-- STA-5. -/
theorem test_sta_absx :
    after (cell 0x0305) { start [(0x0200, 0x9D), (0x0202, 0x03)] with x := 0x05, a := 0x5A } =
      some (0x5A, 0x24, 0x0203, 4) := by decide

/-- STA-6. -/
theorem test_sta_absy_crosses :
    after (cell 0x1310) { start [(0x0200, 0x99), (0x0201, 0xF0), (0x0202, 0x12)] with y := 0x20, a := 0x5A } =
      some (0x5A, 0x24, 0x0203, 5) := by decide

/-- STA-8. -/
theorem test_sta_indx :
    after (cell 0x1234) { start [(0x0000, 0x12), (0x00FF, 0x34), (0x0200, 0x81), (0x0201, 0xFE)] with x := 0x01, a := 0x5A } =
      some (0x5A, 0x24, 0x0202, 6) := by decide

/-- STA-9. -/
theorem test_sta_indy_crosses :
    after (cell 0x1310) { start [(0x0010, 0xF0), (0x0011, 0x12), (0x0200, 0x91), (0x0201, 0x10)] with y := 0x20, a := 0x5A } =
      some (0x5A, 0x24, 0x0202, 6) := by decide

/-- STA-10. -/
theorem test_sta_indy :
    after (cell 0x3005) { start [(0x0011, 0x30), (0x0200, 0x91), (0x0201, 0x10)] with y := 0x05, a := 0x5A } =
      some (0x5A, 0x24, 0x0202, 5) := by decide

/-- ADC-8. -/
theorem test_adc_carry_in_overflows :
    after regs { start [(0x0200, 0x69), (0x0201, 0x40)] with a := 0x3F, p := 0x25 } =
      some (0x80, 0xE4, 0x0202, 2) := by decide

/-- ADC-9. -/
theorem test_adc_is_binary :
    after regs { start [(0x0200, 0x69), (0x0201, 0x01)] with a := 0x09, p := 0x2C } =
      some (0x0A, 0x2C, 0x0202, 2) := by decide

/-- AND-1. -/
theorem test_and_imm :
    after regs { start [(0x0200, 0x29), (0x0201, 0x0F)] with a := 0xF0 } =
      some (0x00, 0x26, 0x0202, 2) := by decide

/-- AND-10. -/
theorem test_and_imm_keeps_c_v :
    after regs { start [(0x0200, 0x29), (0x0201, 0xFF)] with a := 0xF0, p := 0x65 } =
      some (0xF0, 0xE5, 0x0202, 2) := by decide

/-- AND-3. -/
theorem test_and_zp :
    after regs { start [(0x0010, 0x3C), (0x0200, 0x25), (0x0201, 0x10)] with a := 0xF0 } =
      some (0x30, 0x24, 0x0202, 3) := by decide

/-- AND-4. -/
theorem test_and_zpx_wraps :
    after regs { start [(0x0001, 0xFF), (0x0200, 0x35), (0x0201, 0xFF)] with a := 0xF0, x := 0x02 } =
      some (0xF0, 0xA4, 0x0202, 4) := by decide

/-- AND-5. -/
theorem test_and_abs :
    after regs { start [(0x0200, 0x2D), (0x0201, 0x34), (0x0202, 0x12), (0x1234, 0x0F)] with a := 0xF0 } =
      some (0x00, 0x26, 0x0203, 4) := by decide

/-- AND-6. -/
theorem test_and_absx_crosses :
    after regs { start [(0x0200, 0x3D), (0x0201, 0xFF), (0x0202, 0x03), (0x0400, 0xAA)] with a := 0xF0, x := 0x01 } =
      some (0xA0, 0xA4, 0x0203, 5) := by decide

/-- AND-7. -/
theorem test_and_absy :
    after regs { start [(0x0200, 0x39), (0x0202, 0x03), (0x0305, 0x10)] with a := 0xF0, y := 0x05 } =
      some (0x10, 0x24, 0x0203, 4) := by decide

/-- AND-8. -/
theorem test_and_indx :
    after regs { start [(0x0000, 0x12), (0x00FF, 0x34), (0x0200, 0x21), (0x0201, 0xFE), (0x1234, 0xC3)] with a := 0xF0, x := 0x01 } =
      some (0xC0, 0xA4, 0x0202, 6) := by decide

/-- AND-9. -/
theorem test_and_indy_crosses :
    after regs { start [(0x0010, 0xF0), (0x0011, 0x12), (0x0200, 0x31), (0x0201, 0x10), (0x1310, 0x01)] with a := 0xF0, y := 0x20 } =
      some (0x00, 0x26, 0x0202, 6) := by decide

/-- ASL-3. -/
theorem test_asl_acc :
    after regs { start [(0x0200, 0x0A)] with a := 0xC1 } =
      some (0x82, 0xA5, 0x0201, 2) := by decide

/-- ASL-4. -/
theorem test_asl_acc_shifts_no_carry_in :
    after regs { start [(0x0200, 0x0A)] with a := 0x01, p := 0x25 } =
      some (0x02, 0x24, 0x0201, 2) := by decide

/-- ASL-5. -/
theorem test_asl_zp :
    after (cell 0x0010) (start [(0x0010, 0x81), (0x0200, 0x06), (0x0201, 0x10)]) =
      some (0x02, 0x25, 0x0202, 5) := by decide

/-- ASL-7. -/
theorem test_asl_zpx_wraps :
    after (cell 0x0001) { start [(0x0001, 0xFF), (0x0200, 0x16), (0x0201, 0xFF)] with x := 0x02 } =
      some (0xFE, 0xA5, 0x0202, 6) := by decide

/-- ASL-8. -/
theorem test_asl_abs :
    after (cell 0x1234) (start [(0x0200, 0x0E), (0x0201, 0x34), (0x0202, 0x12), (0x1234, 0x40)]) =
      some (0x80, 0xA4, 0x0203, 6) := by decide

/-- The parameters with `ASL_ZPX_UNINDEXED` true. -/
def unindexed : Config := { Config.default with aslZpxUnindexed := true }

/-- ASL-9, the instruction alone. -/
theorem test_asl_zpx_unindexed :
    let t := execWith unindexed (.aslZpx 0x10)
      { start [(0x0010, 0x40), (0x0011, 0x01)] with x := 0x01 }
    (byteAt t 0x0010, byteAt t 0x0011, t.p) = (0x80, 0x01, 0xA4) := by decide

/-- BIT-1. -/
theorem test_bit_zp :
    after regs { start [(0x0020, 0xC0), (0x0200, 0x24), (0x0201, 0x20)] with a := 0x40 } =
      some (0x40, 0xE4, 0x0202, 3) := by decide

/-- BIT-3. -/
theorem test_bit_zp_clears_n_v :
    after regs { start [(0x0200, 0x24), (0x0201, 0x20)] with a := 0xFF, p := 0xE5 } =
      some (0xFF, 0x27, 0x0202, 3) := by decide

/-- BIT-4. -/
theorem test_bit_abs :
    after regs { start [(0x0200, 0x2C), (0x0201, 0x34), (0x0202, 0x12), (0x1234, 0x3E)] with a := 0x01 } =
      some (0x01, 0x26, 0x0203, 4) := by decide

/-- BR-1. -/
theorem test_bpl_taken :
    after regs { start [(0x0200, 0x10), (0x0201, 0x10)] with p := 0x24 } =
      some (0x00, 0x24, 0x0212, 3) := by decide

/-- BR-2. -/
theorem test_bpl_not_taken :
    after regs { start [(0x0200, 0x10), (0x0201, 0x10)] with p := 0xA4 } =
      some (0x00, 0xA4, 0x0202, 2) := by decide

/-- BR-3. -/
theorem test_bmi_taken :
    after regs { start [(0x0200, 0x30), (0x0201, 0x10)] with p := 0xA4 } =
      some (0x00, 0xA4, 0x0212, 3) := by decide

/-- BR-4. -/
theorem test_bmi_not_taken :
    after regs { start [(0x0200, 0x30), (0x0201, 0x10)] with p := 0x24 } =
      some (0x00, 0x24, 0x0202, 2) := by decide

/-- BR-5. -/
theorem test_bvc_taken :
    after regs { start [(0x0200, 0x50), (0x0201, 0x10)] with p := 0x24 } =
      some (0x00, 0x24, 0x0212, 3) := by decide

/-- BR-6. -/
theorem test_bvc_not_taken :
    after regs { start [(0x0200, 0x50), (0x0201, 0x10)] with p := 0x64 } =
      some (0x00, 0x64, 0x0202, 2) := by decide

/-- BR-7. -/
theorem test_bvs_taken :
    after regs { start [(0x0200, 0x70), (0x0201, 0x10)] with p := 0x64 } =
      some (0x00, 0x64, 0x0212, 3) := by decide

/-- BR-8. -/
theorem test_bvs_not_taken :
    after regs { start [(0x0200, 0x70), (0x0201, 0x10)] with p := 0x24 } =
      some (0x00, 0x24, 0x0202, 2) := by decide

/-- BR-9. -/
theorem test_bcc_taken :
    after regs { start [(0x0200, 0x90), (0x0201, 0x10)] with p := 0x24 } =
      some (0x00, 0x24, 0x0212, 3) := by decide

/-- BR-10. -/
theorem test_bcc_not_taken :
    after regs { start [(0x0200, 0x90), (0x0201, 0x10)] with p := 0x25 } =
      some (0x00, 0x25, 0x0202, 2) := by decide

/-- BR-11. -/
theorem test_bcs_taken :
    after regs { start [(0x0200, 0xB0), (0x0201, 0x10)] with p := 0x25 } =
      some (0x00, 0x25, 0x0212, 3) := by decide

/-- BR-12. -/
theorem test_bcs_not_taken :
    after regs { start [(0x0200, 0xB0), (0x0201, 0x10)] with p := 0x24 } =
      some (0x00, 0x24, 0x0202, 2) := by decide

/-- BR-23. -/
theorem test_bne_wraps_and_crosses :
    after regs { start [(0xFFF0, 0xD0), (0xFFF1, 0x20)] with pc := 0xFFF0 } =
      some (0x00, 0x24, 0x0012, 4) := by decide

/-- BR-24. -/
theorem test_bne_page_test_is_against_next :
    after regs { start [(0x02FE, 0xD0)] with pc := 0x02FE } =
      some (0x00, 0x24, 0x0300, 3) := by decide

/-- BR-15. -/
theorem test_beq_taken :
    after regs { start [(0x0200, 0xF0), (0x0201, 0x10)] with p := 0x26 } =
      some (0x00, 0x26, 0x0212, 3) := by decide

/-- BR-25. -/
theorem test_beq_not_taken_has_no_page_cycle :
    after regs { start [(0x02FD, 0xF0), (0x02FE, 0x01)] with pc := 0x02FD } =
      some (0x00, 0x24, 0x02FF, 2) := by decide

/-- The three bytes on the stack, SP, P and PC after BRK. -/
def broken (t : State) : List Byte × Byte × Byte × Addr :=
  ([byteAt t (stackAddr (t.sp + 3)), byteAt t (stackAddr (t.sp + 2)), byteAt t (stackAddr (t.sp + 1))],
    t.sp, t.p, t.pc)

/-- BRK-2. -/
theorem test_brk_stack_wraps :
    after broken { start [(0xFFFF, 0x30)] with sp := 0x01 } =
      some ([0x02, 0x03, 0x34], 0xFE, 0x24, 0x3000) := by decide

/-- BRK-4. -/
theorem test_brk_pushes_the_old_i :
    after broken { start [] with p := 0x20 } =
      some ([0x02, 0x03, 0x30], 0xFA, 0x24, 0x0000) := by decide

/-- UN-1. -/
theorem test_unrecognised :
    after regs (start [(0x0200, 0xFF)]) =
      some (0x00, 0x24, 0x0201, 1) := by decide

/-- UN-3, its first instruction. -/
theorem test_unrecognised_has_no_operand :
    after regs (start [(0x0200, 0x1E), (0x0202, 0x30)]) =
      some (0x00, 0x24, 0x0201, 1) := by decide

/-- BUD-2: a call with budget 1 runs the LDA in full and returns -1. -/
theorem test_execute_overshoots :
    (match execute 0x01 { start [(0x0200, 0xA9), (0x0201, 0x01)] with run := .idle } with
      | .next t => some (t.a, t.pc, t.remaining, t.run)
      | .fault _ => none
      | .refused _ => none) = some (0x01, 0x0202, -1, .idle) := by decide

/-- P6's instruction bytes, stored by `withFetchWord`, are what the next step runs from reset. -/
theorem test_withFetchWord :
    after (fun t => (t.p, t.pc)) (State.reset.withFetchWord 16 0x1016) = some (0x26, 0x0102) := by decide

/-! ### Witnesses: states and operands that meet the obligations' hypotheses -/

/-- DecodeOfEncodeIsTheInstruction, at both kinds of constructor. -/
theorem test_witness_wellFormed : (Instr.ldaAbs 0xFFFF).WellFormed = true ∧
    (Instr.unrecognised 0x02).WellFormed = true := by decide

/-- EncodeOfDecodeIsTheBytes. -/
theorem test_witness_decodes : decode [0xBD, 0xFF, 0x03, 0x77] = .ok (.ldaAbsx 0x03FF) [0x77] := by decide

/-- UnrecognisedAreTheOtherBytes, both clauses, at the ends of the byte range. -/
theorem test_witness_recognised : isRecognised 0xFF = false ∧ isRecognised 0x00 = true := by decide

/-- StepRunsTheDecodedInstruction, with the instruction across the end of the address space. -/
theorem test_witness_step :
    let s := { start [(0x0000, 0x12), (0xFFFE, 0xAD), (0xFFFF, 0x34)] with pc := 0xFFFE }
    s.run = .running ∧ 0 < s.remaining ∧
    decode [byteAt s s.pc, byteAt s (s.pc + 1), byteAt s (s.pc + 2)] = .ok (.ldaAbs 0x1234) [] := by decide

/-- StepWithoutBudgetRunsNothing, both clauses. -/
theorem test_witness_no_budget : State.reset.run = .idle ∧
    (let s := { start [] with remaining := 0 }
     s.run = .running ∧ s.remaining ≤ 0) := by decide

/-- FetchWordIsLittleEndian, its last clause. -/
theorem test_witness_pc_at_the_end : ({ start [] with pc := 0xFFFF } : State).pc = 0xFFFF := by decide

/-- FetchWordIsFetchedNext. -/
theorem test_witness_table_word : decodeTableWord 16 0x80A9 = some (.ldaImm 0x80) := by decide

/-- StoreIsSeenByFetch, at a mode with an indexed address (STA-6's operands). -/
theorem test_witness_store_is_fetched :
    (match exec (.staAbsy 0x12F0) { start [] with a := 0x5A, y := 0x20 } with
      | .next t => some (fetchByte Config.default { t with pc := 0x1310 }).1
      | .fault _ => none
      | .refused _ => none) = some 0x5A := by decide

/-- BusTransactionsReplayTheStep, its second clause: a memory that differs where LDA zp reads nothing. -/
theorem test_witness_other_memory :
    let s := start [(0x0010, 0x7F), (0x0200, 0xA5), (0x0201, 0x10)]
    let m : Memory := [(0x0010, 0x7F), (0x0200, 0xA5), (0x0201, 0x10), (0x0202, 0x99)]
    m ≠ s.mem ∧ ∀ tx ∈ stepTrace Config.default s, tx.dir = .read →
      busRead Config.default m tx.addr = busRead Config.default s.mem tx.addr := by decide

/-- ASL-5's accesses: two fetched bytes, then one read and one write of the same address. -/
theorem test_bus_accesses_asl :
    stepTrace Config.default (start [(0x0010, 0x81), (0x0200, 0x06), (0x0201, 0x10)]) =
      [⟨.read, 0x0200, 0x06⟩, ⟨.read, 0x0201, 0x10⟩, ⟨.read, 0x0010, 0x81⟩, ⟨.write, 0x0010, 0x02⟩] := by
  decide

/-- ResetForgetsEverything: two devices that differ, both Idle. -/
theorem test_witness_two_devices :
    let d : Device := ⟨State.reset, true⟩
    let e : Device := ⟨{ State.reset with a := 0x01, mem := [(0x0010, 0x01)] }, false⟩
    d.core.run = .idle ∧ e.core.run = .idle ∧ d ≠ e := by decide

/-- StepKeepsTheInvariant: a state that meets it in the middle of a call, and its step. -/
theorem test_witness_invariant_running :
    (start [(0x0200, 0xA9), (0x0201, 0x80)]).inv = true ∧
    after (fun t => (t.a, t.inv)) (start [(0x0200, 0xA9), (0x0201, 0x80)]) = some (0x80, true) := by decide

/-- StepKeepsTheInvariant: the lowest budget an idle state may hold, and the greatest of a running one. -/
theorem test_witness_invariant_bounds : ({ State.reset with remaining := -6 } : State).inv = true ∧
    ({ start [] with remaining := 255 } : State).inv = true ∧
    ({ State.reset with remaining := -7 } : State).inv = false ∧
    ({ start [] with remaining := 0 } : State).inv = false := by decide

/-- HostOperationsKeepTheInvariant: a host write from a state that meets it. -/
theorem test_witness_host_write :
    State.reset.inv = true ∧
    hostOp (.write 0x0010 0x01) ⟨State.reset, true⟩ =
      .next (⟨{ State.reset with mem := [(0x0010, 0x01)] }, true⟩, .unit) := ⟨by decide, rfl⟩

/-- HostOperationsKeepTheInvariant, its second clause: a reset from a state that does not meet it. -/
theorem test_witness_host_reset :
    let d : Device := ⟨{ State.reset with p := 0x00 }, false⟩
    d.core.inv = false ∧
    hostOp (.reset none) d = .next (⟨State.reset, true⟩, .unit) := ⟨by decide, rfl⟩

/-- ZeroedMemoryRunsBreaks: P5 with budget 14, at the bound. -/
theorem test_witness_two_breaks : (7 : Int) * (((1 : Nat) : Int) + 1) ≤ 14 := by decide

/-- FlagWritesForceU, its clauses. -/
theorem test_witness_flags : Flag.c ≠ Flag.u ∧ Flag.n ≠ Flag.u ∧ Flag.n ≠ Flag.c := by decide

/-- The statements about `exec i s = .next t`: FlagsOutsideTheTableAreKept, NoInstructionWritesXYOrD,
MemoryChangesOnlyWhereStored, CostsLieInTheTable, InstructionsIgnoreTheBudget, AdcOverflowIsSignedOverflow. -/
theorem test_witness_exec_next : exec (.adcImm 0x01) { State.reset with a := 0x7F } =
    .next { State.reset with a := 0x80, p := 0xE4, remaining := -2 } := rfl

/-- FlagsOutsideTheTableAreKept, both clauses on the list; MemoryChangesOnlyWhereStored, its last. -/
theorem test_witness_lists : Claims.flagsWritten (.staZp 0x10) = [] ∧ Claims.flagsWritten .brk ≠ [] ∧
    Claims.storedAddrs (.ldaZp 0x10) State.reset = [] := by decide

/-- OnlyBreakChangesIBAndSp, the first alternative. -/
theorem test_witness_brk_next : ∃ t, exec .brk State.reset = .next t ∧ t.sp = 0xFA := ⟨_, rfl, by decide⟩

/-- OnlyBranchesAndBreakMovePc. -/
theorem test_witness_no_transfer : Claims.transfersControl (.unrecognised 0xFF) = false ∧
    exec (.unrecognised 0xFF) State.reset = .next { State.reset with remaining := -1 } := ⟨by decide, rfl⟩

/-- A machine whose upper half is unmapped. -/
def halfMapped : Config := { Config.default with mapped := fun a => decide (a.toNat < 32768) }

/-- BusIsAFilter: a mapped address, an unmapped one, and two that differ. -/
theorem test_witness_bus : halfMapped.mapped 0x7FFF = true ∧ halfMapped.mapped 0x8000 = false ∧
    (0x7FFF : Addr) ≠ 0x8000 := by decide

/-- AslZpxParameterChoosesTheByte, at both values of the parameter. -/
theorem test_witness_asl_zpx : ({ start [] with x := 0x01 } : State).x ≠ 0x00 ∧
    Config.default.aslZpxUnindexed = false ∧ unindexed.aslZpxUnindexed = true ∧
    (∀ a, Config.default.mapped a = true) ∧ (∀ a, unindexed.mapped a = true) :=
  ⟨by decide, rfl, rfl, fun _ => rfl, fun _ => rfl⟩

/-- BranchesTestOneFlag: each flag at the value one branch of its pair wants, and at the other. -/
theorem test_witness_branches :
    (∀ f : Flag, f ≠ .u → readFlag f { State.reset with p := 0xFF } = true) ∧
    (∀ f : Flag, f ≠ .u → readFlag f { State.reset with p := 0x20 } = false) := by
  constructor <;> intro f <;> cases f <;> decide

/-- UnrecognisedOnlyAdvances, its second clause, at the least budget it allows. -/
theorem test_witness_unrecognised :
    let s := { start [(0x0200, 0x02)] with remaining := 2 }
    s.run = .running ∧ 1 < s.remaining ∧ isRecognised (byteAt s s.pc) = false := by decide

/-- HostReadsBackItsWrite and HostSetsRegistersAndFlags: an Idle device, and two addresses. -/
theorem test_witness_idle_device : (⟨State.reset, true⟩ : Device).core.run = .idle ∧
    (0xFFFF : Addr) ≠ 0x0000 := by decide

/-- HostIsRefusedOnlyAsStated, its third clause before the first reset: an operation that is no execute. -/
theorem test_witness_read_before_reset : Device.powerOn.core.run = .idle ∧
    (Device.powerOn.resetDone = true ∨ ∀ n, HostOp.read 0xFFFF ≠ .execute n) :=
  ⟨rfl, .inr fun _ h => by cases h⟩

/-- `set_reg` and `get_reg` of PC, and `get_reg(P)` after `set_flag` (70_reset_and_hazards.md R158). -/
theorem test_get_reg :
    hostOp (.getReg .pc) ⟨{ State.reset with pc := 0x1234 }, true⟩ =
      .next (⟨{ State.reset with pc := 0x1234 }, true⟩, .addr 0x1234) ∧
    hostOp (.setFlag .c true) ⟨State.reset, true⟩ =
      .next (⟨{ State.reset with p := 0x25 }, true⟩, .unit) ∧
    hostOp (.getReg .p) ⟨{ State.reset with p := 0x25 }, true⟩ =
      .next (⟨{ State.reset with p := 0x25 }, true⟩, .byte 0x25) := ⟨rfl, rfl, rfl⟩

/-- HostIsRefusedOnlyAsStated, its three clauses; before the first reset the device is `powerOn`. -/
theorem test_witness_refusals : (⟨start [], true⟩ : Device).core.run = .running ∧
    Device.powerOn.core.run = .idle ∧ Device.powerOn.resetDone = false ∧
    (⟨State.reset, true⟩ : Device).core.run = .idle ∧ (⟨State.reset, true⟩ : Device).resetDone = true :=
  ⟨rfl, rfl, rfl, rfl, rfl⟩

/-- ExecuteEndsIdleWithItsOvershoot, its last clause (BUD-1): a call with budget 0 runs nothing. -/
theorem test_execute_zero : execute 0x00 State.reset = .next State.reset := rfl

end Sys2Proof.Tests
end

section
/-! SUPPORT. The widening of a byte to an address (00_scope.md R10). -/

namespace Sys2Proof.Machine

/-- `sext_16` keeps a byte below 0x80 and fills the high byte of any other with ones (00_scope.md R10). -/
theorem sext16_toNat (v : Byte) :
    (sext16 v).toNat = if v.toNat < 0x80 then v.toNat else v.toNat + 0xFF00 := by
  have hfit : v.toNat % 2 ^ 16 = v.toNat := Nat.mod_eq_of_lt (by omega)
  have hsign : v.msb = decide (0x80 ≤ v.toNat) := BitVec.msb_eq_decide v
  rw [sext16, BitVec.toNat_signExtend, BitVec.toNat_setWidth, hfit, hsign]
  by_cases hneg : 0x80 ≤ v.toNat
  · simp [hneg, Nat.not_lt.mpr hneg]
  · simp [hneg, Nat.lt_of_not_le hneg]

/-- Settles O35: the two widenings by their values, the two bits by definition. -/
theorem wideningFollowsTheSign : Obligations.WideningFollowsTheSign :=
  fun v => ⟨sext16_toNat v, zext16_toNat v, rfl, rfl⟩

end Sys2Proof.Machine
end

section
/-! SUPPORT. Every flag write goes through `SetFlag`, which forces U (10_state.md R32). -/

namespace Sys2Proof.Machine

/-- P after an instruction that writes a flag is what a `SetFlag` gives (10_state.md R32, 43_alu.md R125): the
cases are grouped by the flag the instruction's rule writes last. -/
theorem exec_p_eq_setFlag {i : Instr} {s t : State} (hwrites : Claims.flagsWritten i ≠ [])
    (h : exec i s = .next t) : ∃ (f : Flag) (b : Bool) (q : Byte), t.p = setFlag f b q := by
  cases i
  case ldaImm | ldaZp | ldaZpx | ldaAbs | ldaAbsx | ldaAbsy | ldaIndx | ldaIndy
      | andImm | andZp | andZpx | andAbs | andAbsx | andAbsy | andIndx | andIndy
      | aslAcc | aslZp | aslZpx | aslAbs =>
    cases h
    exact ⟨.n, _, _, rfl⟩
  case adcImm | bitZp | bitAbs =>
    cases h
    exact ⟨.v, _, _, rfl⟩
  case brk =>
    cases h
    exact ⟨.i, _, _, rfl⟩
  case staZp | staZpx | staAbs | staAbsx | staAbsy | staIndx | staIndy
      | bpl | bmi | bvc | bvs | bcc | bcs | bne | beq | unrecognised =>
    exact absurd rfl hwrites

/-- An instruction that writes a flag leaves U stored as 1 (10_state.md R32). -/
theorem exec_storedFlag_u {i : Instr} {s t : State} (hwrites : Claims.flagsWritten i ≠ [])
    (h : exec i s = .next t) : storedFlag .u t.p = true := by
  obtain ⟨f, b, q, hp⟩ := exec_p_eq_setFlag hwrites h
  simp [hp]

/-- The host's `set_flag` on an Idle device is `SetFlag` on P (70_reset_and_hazards.md R158). -/
theorem hostOp_setFlag {d : Device} (hidle : d.core.run = .idle) (f : Flag) (b : Bool) :
    hostOp (.setFlag f b) d =
      .next ({ d with core := { d.core with p := setFlag f b d.core.p } }, .unit) := by
  simp only [hostOp, hidle]

/-- The host's `toggle_flag` on an Idle device is `ToggleFlag` on P (70_reset_and_hazards.md R158). -/
theorem hostOp_toggleFlag {d : Device} (hidle : d.core.run = .idle) (f : Flag) :
    hostOp (.toggleFlag f) d =
      .next ({ d with core := { d.core with p := toggleFlag f d.core.p } }, .unit) := by
  simp only [hostOp, hidle]

/-- Settles O22: every flag write is a `SetFlag` or a `ToggleFlag`, whose laws give each clause. -/
theorem flagWritesForceU : Obligations.FlagWritesForceU := by
  refine ⟨fun f g b p => ⟨?_, ?_, fun hfu => ⟨?_, ?_⟩, fun hgu hgf => ⟨?_, ?_⟩⟩,
    fun _ _ _ h hwrites => exec_storedFlag_u hwrites h, rfl,
    fun f b _ hidle => ⟨hostOp_setFlag hidle f b, hostOp_toggleFlag hidle f⟩⟩
  · rw [storedFlag_setFlag, if_pos rfl]
  · rw [storedFlag_toggleFlag, if_pos rfl]
  · rw [storedFlag_setFlag, if_neg hfu, if_pos rfl]
  · rw [storedFlag_toggleFlag, if_neg hfu, if_pos rfl]
  · rw [storedFlag_setFlag, if_neg hgu, if_neg hgf]
  · rw [storedFlag_toggleFlag, if_neg hgu, if_neg hgf]

end Sys2Proof.Machine
end

section
/-! SUPPORT. Read after write for the memory, the Bus and the push (20_memory.md §2, §3, §7). -/

namespace Sys2Proof.Machine

/-- A memory read after a write: the byte written at that address, the old one anywhere else
(20_memory.md R38). -/
theorem read_write (m : Memory) (a b : Nat) (v : Byte) :
    Memory.read (Memory.write m a v) b = if b = a then v else Memory.read m b := by
  unfold Memory.write
  split
  case isTrue hzero => rw [read_erase, hzero]
  case isFalse =>
    rw [read_insert _ _ _ _ (erase_fresh m a), read_erase]
    by_cases hb : b = a
    · simp only [if_pos hb]
    · simp only [if_neg hb]

/-- At the defaults a Bus read after a Bus write gives the byte written at that address and the old one
anywhere else (20_memory.md R38, R39). -/
theorem busRead_busWrite_default (m : Memory) (a b : Addr) (v : Byte) :
    busRead Config.default (busWrite Config.default m a v) b =
      if b = a then v else busRead Config.default m b := by
  simp only [busRead_default, busWrite_default, read_write, BitVec.toNat_inj]

/-- After a push the stack byte is the pushed one and every other byte is as before (20_memory.md R53). -/
theorem byteAt_push (b : Byte) (s : State) (a : Addr) :
    byteAt (push Config.default b s) a = if a = stackAddr s.sp then b else byteAt s a := by
  simp only [byteAt_eq, push_mem, busRead_busWrite_default]

/-- Subtracting 1 from a byte wraps below 0 (20_memory.md R53). -/
theorem byte_sub_one_toNat (v : Byte) : ((v - 1).toNat : Int) = ((v.toNat : Int) - 1) % 256 := by
  have hone : (1 : Byte).toNat = 1 := rfl
  rw [BitVec.toNat_sub, hone]
  omega

/-- Settles O32: the read after a push, and the numbers of the stack address and of the decremented SP; a
push writes no other field. -/
theorem pushWritesThenDecrements : Obligations.PushWritesThenDecrements := by
  intro b s
  refine ⟨?_, ?_, byte_sub_one_toNat s.sp, stackAddr_toNat s.sp, push_a s _ b, push_p s _ b, push_x s _ b,
    push_y s _ b, push_pc s _ b, push_run s _ b, push_remaining s _ b⟩
  · rw [byteAt_push, if_pos rfl]
  · intro a hother
    rw [byteAt_push, if_neg (List.ne_of_not_mem_cons hother)]

end Sys2Proof.Machine
end

section
/-! SUPPORT. The zero-page pointer read and the page-cross test (41_addressing.md §2, §3). -/

namespace Sys2Proof.Machine

/-- A byte sum wraps at 256 (00_scope.md R9). -/
theorem byte_add_eq_ofNat (u v : Byte) : u + v = BitVec.ofNat 8 ((u.toNat + v.toNat) % 256) := by
  apply BitVec.eq_of_toNat_eq
  rw [BitVec.toNat_add, BitVec.toNat_ofNat, Nat.mod_mod]

/-- A byte widened is the address of the same number (00_scope.md R10). -/
theorem zext16_eq_ofNat (v : Byte) : zext16 v = BitVec.ofNat 16 v.toNat :=
  (BitVec.ofNat_toNat 16 v).symm

/-- The byte after `p` in page 0 wraps from 0x00FF to 0x0000 (41_addressing.md R92). -/
theorem zext16_add_one_eq_ofNat (p : Byte) :
    zext16 (p + 1) = BitVec.ofNat 16 ((p.toNat + 1) % 256) := by
  have hone : (1 : Byte).toNat = 1 := rfl
  rw [zext16_eq_ofNat, BitVec.toNat_add, hone]

/-- The pointer at `p` has its low byte at `p` and its high byte at the next address of page 0
(41_addressing.md R92). -/
theorem readZPWord_toNat (c : Config) (p : Byte) (s : State) :
    (readZPWord c p s).toNat =
      (memRead c (BitVec.ofNat 16 ((p.toNat + 1) % 256)) s).toNat * 256 +
        (memRead c (BitVec.ofNat 16 p.toNat) s).toNat := by
  rw [readZPWord, wordOf_toNat, zext16_add_one_eq_ofNat, zext16_eq_ofNat]

/-- (zp,X) reads its address through the pointer at `b1 + X` of page 0 (41_addressing.md R86). -/
theorem eaIndx_addr (c : Config) (b1 : Byte) (s : State) :
    (eaIndx c b1 s).addr = readZPWord c (BitVec.ofNat 8 ((b1.toNat + s.x.toNat) % 256)) s := by
  rw [eaIndx, byte_add_eq_ofNat]

/-- Settles O38: the pointer read by its number and the pointer's address by the byte sum; the mode never
reports a crossing. -/
theorem indexedIndirectAddresses : Obligations.IndexedIndirectAddresses :=
  fun c b1 p s => ⟨readZPWord_toNat c p s, eaIndx_addr c b1 s, rfl⟩

/-- Masking the low byte away leaves the high byte over zero (41_addressing.md R91). -/
theorem and_FF00_eq_wordOf (w : Addr) : w &&& 0xFF00 = wordOf 0#8 (hiByte w) := by
  have hmask : (0xFF00 : Addr) = wordOf 0#8 (BitVec.allOnes 8) := rfl
  calc w &&& 0xFF00
      = wordOf (loByte w) (hiByte w) &&& wordOf 0#8 (BitVec.allOnes 8) := by
        rw [wordOf_loByte_hiByte, hmask]
    _ = wordOf (loByte w &&& 0#8) (hiByte w &&& BitVec.allOnes 8) := BitVec.and_append
    _ = wordOf 0#8 (hiByte w) := by rw [BitVec.and_zero, BitVec.and_allOnes]

/-- Two addresses agree under the mask exactly when their high bytes agree (41_addressing.md R91). -/
theorem and_FF00_inj (u w : Addr) : u &&& 0xFF00 = w &&& 0xFF00 ↔ hiByte u = hiByte w := by
  rw [and_FF00_eq_wordOf, and_FF00_eq_wordOf]
  constructor
  · intro h
    simpa only [hiByte_wordOf] using congrArg hiByte h
  · exact congrArg (wordOf 0#8)

/-- Settles O40: R91's masks differ exactly when the high bytes do, and a high byte is the quotient by 256. -/
theorem pageCrossComparesHighBytes : Obligations.PageCrossComparesHighBytes := by
  intro base addr
  calc pageCross base addr = true
      ↔ ¬ addr &&& 0xFF00 = base &&& 0xFF00 := bne_iff_ne
    _ ↔ ¬ hiByte addr = hiByte base := not_congr (and_FF00_inj addr base)
    _ ↔ base.toNat / 256 ≠ addr.toNat / 256 := by
        rw [← BitVec.toNat_inj, hiByte_toNat, hiByte_toNat, eq_comm]

end Sys2Proof.Machine
end

section
/-! SUPPORT. The opcode table read as an encoder, and the round trips of the decoder (30_encoding.md). -/

namespace Sys2Proof

/-- The operand bytes an instruction of a format has (30_encoding.md R56). -/
def operandBytes : Format → Byte → Byte → List Byte
  | .op, _, _ => []
  | .op8, b1, _ => [b1]
  | .op16, b1, b2 => [b1, b2]

/-- What a row of the opcode map promises: it builds a well-formed instruction whose bytes are the row's
opcode and the operand bytes of its format (30_encoding.md R60). -/
def OpRow.Faithful (r : OpRow) : Prop :=
  ∀ b1 b2, encode (r.build b1 b2) = r.opcode :: operandBytes (formatOfMode r.mode) b1 b2 ∧
    (r.build b1 b2).WellFormed = true

/-- Every row of the opcode map is faithful, read row by row. -/
theorem opcodeTable_faithful : ∀ r ∈ opcodeTable, r.Faithful := by
  simp [opcodeTable, rowsLda, rowsSta, rowsAdcAnd, rowsAslBit, rowsControl, OpRow.Faithful, encode,
    encode8, encode16, formatOfMode, operandBytes, Instr.WellFormed]

/-- A found row is a row of the map, for that opcode (30_encoding.md R61). -/
theorem findRow_eq_some {op : Byte} {r : OpRow} (h : findRow op = some r) :
    r ∈ opcodeTable ∧ r.opcode = op :=
  ⟨List.mem_of_find?_eq_some h, beq_iff_eq.mp (List.find?_some (p := fun r : OpRow => r.opcode == op) h)⟩

/-- The bytes of R60 listed on their own are those of the map's rows. -/
theorem recognisedOpcodes_eq : Machine.recognisedOpcodes = opcodeTable.map OpRow.opcode := rfl

/-- A byte has a row exactly when it is one of the 39 of 30_encoding.md R60. -/
theorem findRow_eq_none_iff (op : Byte) : findRow op = none ↔ Machine.isRecognised op = false := by
  rw [findRow, List.find?_eq_none, Machine.isRecognised, recognisedOpcodes_eq, ← Bool.not_eq_true,
    List.contains_iff_mem, List.mem_map]
  simp

/-- A byte without a row is an unrecognised opcode of one byte (30_encoding.md R62). -/
theorem instrOf_of_findRow_none {op : Byte} (h : findRow op = none) (b1 b2 : Byte) :
    instrOf op b1 b2 = .unrecognised op ∧ formatOf op = .op := by
  simp [instrOf, formatOf, h]

/-- A byte with a row is built by that row, in the format of its mode (30_encoding.md R61). -/
theorem instrOf_of_findRow_some {op : Byte} {r : OpRow} (h : findRow op = some r) (b1 b2 : Byte) :
    instrOf op b1 b2 = r.build b1 b2 ∧ formatOf op = formatOfMode r.mode := by
  simp [instrOf, formatOf, h]

/-- The instruction of an opcode byte is well-formed, and its bytes are that opcode and the operand bytes
of its format (30_encoding.md R56, R58, R60). -/
theorem instrOf_faithful (op b1 b2 : Byte) :
    encode (instrOf op b1 b2) = op :: operandBytes (formatOf op) b1 b2 ∧
      (instrOf op b1 b2).WellFormed = true := by
  cases h : findRow op with
  | none =>
    obtain ⟨hi, hf⟩ := instrOf_of_findRow_none h b1 b2
    rw [hi, hf]
    exact ⟨rfl, by rw [Instr.WellFormed, (findRow_eq_none_iff op).mp h, Bool.not_false]⟩
  | some r =>
    obtain ⟨hi, hf⟩ := instrOf_of_findRow_some h b1 b2
    obtain ⟨hmem, hop⟩ := findRow_eq_some h
    rw [hi, hf, ← hop]
    exact opcodeTable_faithful r hmem b1 b2

/-- An opcode of format OP decodes on its own (30_encoding.md R56). -/
theorem decode_op {op : Byte} (hf : formatOf op = .op) (rest : List Byte) :
    decode (op :: rest) = .ok (instrOf op 0 0) rest := by
  simp only [decode, hf]

/-- A format OP8 instruction decodes from its two bytes (30_encoding.md R56). -/
theorem decode_encode8 {op : Byte} (hf : formatOf op = .op8) (b1 : Byte) (rest : List Byte) :
    decode (encode8 op b1 ++ rest) = .ok (instrOf op b1 0) rest := by
  simp only [encode8, List.cons_append, List.nil_append, decode, hf]

/-- A format OP16 instruction decodes from its three bytes (30_encoding.md R56, R58). -/
theorem decode_encode16 {op : Byte} (hf : formatOf op = .op16) (w : Addr) (rest : List Byte) :
    decode (encode16 op w ++ rest) = .ok (instrOf op (loByte w) (hiByte w)) rest := by
  simp only [encode16, List.cons_append, List.nil_append, decode, hf]

/-- Bytes that decode begin with an opcode and the operand bytes of its format, and decode to the
instruction of those bytes (30_encoding.md R56, R58). -/
theorem decode_eq_ok {bytes rest : List Byte} {i : Instr} (h : decode bytes = .ok i rest) :
    ∃ op b1 b2, i = instrOf op b1 b2 ∧ bytes = op :: operandBytes (formatOf op) b1 b2 ++ rest := by
  match bytes with
  | [] => cases h
  | op :: tail =>
    match hf : formatOf op, tail with
    | .op, tail =>
      rw [decode_op hf] at h
      cases h
      exact ⟨op, 0, 0, rfl, by rw [hf]; rfl⟩
    | .op8, b1 :: tail =>
      simp only [decode, hf] at h
      cases h
      exact ⟨op, b1, 0, rfl, by rw [hf]; rfl⟩
    | .op16, b1 :: b2 :: tail =>
      simp only [decode, hf] at h
      cases h
      exact ⟨op, b1, b2, rfl, by rw [hf]; rfl⟩
    | .op8, [] | .op16, [_] | .op16, [] => simp [decode, hf] at h

/-- Settles O2: an instruction decodes by its format; an operand word comes back from its two bytes, and an
unrecognised opcode has no row because it is well-formed. -/
theorem decodeOfEncodeIsTheInstruction : Obligations.DecodeOfEncodeIsTheInstruction := by
  intro i rest hwf
  cases i
  case ldaImm b | ldaZp b | ldaZpx b | ldaIndx b | ldaIndy b | staZp b | staZpx b | staIndx b | staIndy b
      | adcImm b | andImm b | andZp b | andZpx b | andIndx b | andIndy b | aslZp b | aslZpx b | bitZp b
      | bpl b | bmi b | bvc b | bvs b | bcc b | bcs b | bne b | beq b =>
    exact decode_encode8 rfl b rest
  case ldaAbs w | ldaAbsx w | ldaAbsy w | staAbs w | staAbsx w | staAbsy w | andAbs w | andAbsx w
      | andAbsy w | aslAbs w | bitAbs w =>
    refine (decode_encode16 rfl w rest).trans ?_
    conv => rhs; rw [← wordOf_loByte_hiByte w]
    rfl
  case aslAcc | brk => exact decode_op rfl rest
  case unrecognised op =>
    have hrow : findRow op = none := (findRow_eq_none_iff op).mpr (by simpa [Instr.WellFormed] using hwf)
    obtain ⟨hi, hf⟩ := instrOf_of_findRow_none hrow 0 0
    exact (decode_op hf rest).trans (by rw [hi])

/-- Settles O3: what decodes is the instruction of its own opcode and operand bytes, which encodes back to
them. -/
theorem encodeOfDecodeIsTheBytes : Obligations.EncodeOfDecodeIsTheBytes := by
  intro bytes rest i h
  obtain ⟨op, b1, b2, rfl, rfl⟩ := decode_eq_ok h
  obtain ⟨hbytes, hwf⟩ := instrOf_faithful op b1 b2
  exact ⟨by rw [hbytes], hwf⟩

/-- Settles O5: by the format of the opcode byte and the number of bytes after it. -/
theorem decodeFailsOnlyOnShortInput : Obligations.DecodeFailsOnlyOnShortInput := by
  intro bytes
  constructor
  · rintro ⟨i, rest, h⟩
    obtain ⟨op, b1, b2, -, rfl⟩ := decode_eq_ok h
    refine ⟨op, _, rfl, ?_⟩
    cases formatOf op <;> simp [formatLength, operandBytes]
  · rintro ⟨op, tail, rfl, hlen⟩
    cases hf : formatOf op with
    | op => exact ⟨_, _, decode_op hf tail⟩
    | op8 =>
      rw [hf] at hlen
      obtain ⟨b1, rest, rfl⟩ := List.exists_cons_of_length_pos (l := tail) (Nat.le_of_succ_le_succ hlen)
      exact ⟨_, _, decode_encode8 hf b1 rest⟩
    | op16 =>
      rw [hf] at hlen
      match tail, hlen with
      | b1 :: b2 :: rest, _ => exact ⟨instrOf op b1 b2, rest, by simp only [decode, hf]⟩
      | [_], h | [], h => simp [formatLength] at h

/-- Settles O4: a byte without a row by its look-up; a recognised one would be the unrecognised byte itself,
which is well-formed only without a row. -/
theorem unrecognisedAreTheOtherBytes : Obligations.UnrecognisedAreTheOtherBytes := by
  refine ⟨fun op b1 b2 hun => ?_, fun op b1 b2 x hrec hx => ?_, rfl, by decide, by decide +kernel⟩
  · obtain ⟨hi, hf⟩ := instrOf_of_findRow_none ((findRow_eq_none_iff op).mpr hun) b1 b2
    exact ⟨hi, by rw [hf]; rfl⟩
  · obtain ⟨hbytes, hwf⟩ := instrOf_faithful op b1 b2
    rw [hx] at hbytes hwf
    obtain rfl : x = op := (List.cons.inj hbytes).1
    simp [Instr.WellFormed, hrec] at hwf

/-- Settles O1: each word is closed, and the decoder computes on it. -/
theorem specWordsDecode : Obligations.SpecWordsDecode := by
  unfold Obligations.SpecWordsDecode
  decide

end Sys2Proof
end

section
/-! SUPPORT. What an instruction can do, said once: the ten shapes of its effect, with the flags it writes,
the addresses it stores to and its cost. -/

namespace Sys2Proof.Machine

open Claims

/-- The cost lies in the instruction's row of 40_execution.md R71. -/
def CostIn (i : Instr) (n : Nat) : Prop := (costRange i).1 ≤ n ∧ n ≤ (costRange i).2

/-- The effect of an instruction: one of ten shapes over the shared operations, each with its row of the
flag table (43_alu.md R125), the addresses it stores to and its cost. -/
inductive Effect (i : Instr) (s : State) : State → Prop
  | load {v : Byte} {n : Nat} (hflags : flagsWritten i = [.n, .z]) (hstored : storedAddrs i s = [])
      (hcost : CostIn i n) : Effect i s (charge n (loadA v s))
  | mask {v : Byte} {n : Nat} (hflags : flagsWritten i = [.n, .z]) (hstored : storedAddrs i s = [])
      (hcost : CostIn i n) : Effect i s (charge n (andA v s))
  | add {v : Byte} {n : Nat} (hflags : flagsWritten i = [.n, .v, .z, .c]) (hstored : storedAddrs i s = [])
      (hcost : CostIn i n) : Effect i s (charge n (addWithCarry v s))
  | store {a : Addr} {n : Nat} (hflags : flagsWritten i = []) (hstored : storedAddrs i s = [a])
      (hcost : CostIn i n) : Effect i s (charge n (memWrite Config.default a s.a s))
  | shiftAcc {n : Nat} (hflags : flagsWritten i = [.n, .z, .c]) (hstored : storedAddrs i s = [])
      (hcost : CostIn i n) : Effect i s (charge n { s with a := aslResult s.a, p := aslFlags s.a s.p })
  | shiftMem {a : Addr} {v : Byte} {n : Nat} (hflags : flagsWritten i = [.n, .z, .c])
      (hstored : storedAddrs i s = [a]) (hcost : CostIn i n) :
      Effect i s (charge n { memWrite Config.default a (aslResult v) s with p := aslFlags v s.p })
  | bitTest {m : Byte} {n : Nat} (hflags : flagsWritten i = [.n, .v, .z]) (hstored : storedAddrs i s = [])
      (hcost : CostIn i n) : Effect i s (charge n { s with p := bitFlags s.a m s.p })
  | jump {target : Addr} {n : Nat} (htransfer : transfersControl i = true) (hflags : flagsWritten i = [])
      (hstored : storedAddrs i s = []) (hcost : CostIn i n) : Effect i s (charge n { s with pc := target })
  | wait {n : Nat} (hflags : flagsWritten i = []) (hstored : storedAddrs i s = []) (hcost : CostIn i n) :
      Effect i s (charge n s)
  | trap (hbrk : i = .brk) : Effect i s (charge 7 (enterBreak Config.default s))

/-- `exec` is the parametric meaning at the defaults, arm by arm (40_execution.md R69). -/
theorem exec_eq_execWith (i : Instr) (s : State) : exec i s = .next (execWith Config.default i s) := by
  cases i <;> rfl

/-- Settles O57: each arm of the dispatch is its parametric meaning at the defaults. -/
theorem execIsTheDefaultInstance : Obligations.ExecIsTheDefaultInstance := exec_eq_execWith

/-- A cost of a row without a "+p" mark. -/
theorem costIn_exact {i : Instr} {n : Nat} (h : costRange i = (n, n)) : CostIn i n := by
  simp [CostIn, h]

/-- A cost of a row with a "+p" mark (40_execution.md R70). -/
theorem costIn_crossed {i : Instr} {n : Nat} (h : costRange i = (n, n + 1)) (crossed : Bool) :
    CostIn i (n + crossed.toNat) := by
  have := crossed.toNat_le
  simp only [CostIn, h]
  omega

/-- A branch jumps or waits (44_branch.md R126). -/
theorem effect_branch {i : Instr} {s : State} (htransfer : transfersControl i = true)
    (hflags : flagsWritten i = []) (hstored : storedAddrs i s = []) (hcost : costRange i = (2, 4))
    (f : Flag) (want : Bool) (target : Addr) :
    Effect i s (if readFlag f s = want then
      charge (3 + (pageCross s.pc target).toNat) { s with pc := target } else charge 2 s) := by
  have := (pageCross s.pc target).toNat_le
  split
  · exact .jump htransfer hflags hstored (by simp only [CostIn, hcost]; omega)
  · exact .wait hflags hstored (by simp only [CostIn, hcost]; omega)

/-- Every instruction has one of the ten effects. -/
theorem exec_effect {i : Instr} {s t : State} (h : exec i s = .next t) : Effect i s t := by
  cases i <;> cases h
  case ldaImm | ldaZp | ldaZpx | ldaAbs | ldaIndx => exact .load rfl rfl (costIn_exact rfl)
  case ldaAbsx | ldaAbsy | ldaIndy => exact .load rfl rfl (costIn_crossed rfl _)
  case andImm | andZp | andZpx | andAbs | andIndx => exact .mask rfl rfl (costIn_exact rfl)
  case andAbsx | andAbsy | andIndy => exact .mask rfl rfl (costIn_crossed rfl _)
  case adcImm => exact .add rfl rfl (costIn_exact rfl)
  case staZp | staZpx | staAbs | staIndx => exact .store rfl rfl (costIn_exact rfl)
  case staAbsx | staAbsy | staIndy => exact .store rfl rfl (costIn_crossed rfl _)
  case aslAcc => exact .shiftAcc rfl rfl (costIn_exact rfl)
  case aslZp | aslZpx | aslAbs => exact .shiftMem rfl rfl (costIn_exact rfl)
  case bitZp | bitAbs => exact .bitTest rfl rfl (costIn_exact rfl)
  case bpl | bmi | bvc | bvs | bcc | bcs | bne | beq => exact effect_branch rfl rfl rfl rfl _ _ _
  case brk => exact .trap rfl
  case unrecognised => exact .wait rfl rfl (costIn_exact rfl)

end Sys2Proof.Machine
end

section
/-! SUPPORT. The frames: what every instruction leaves unchanged, read off its effect. -/

namespace Sys2Proof.Machine

open Claims

/-- A flag whose stored bit is kept reads as before; U reads 1 in any case (10_state.md R29). -/
theorem readFlag_congr {f : Flag} {s t : State}
    (h : f ≠ .u → storedFlag f t.p = storedFlag f s.p) : readFlag f t = readFlag f s := by
  rw [readFlag_eq, readFlag_eq]
  split
  · rfl
  · exact h ‹_›

/-- The stored bit of a flag outside the instruction's row is kept (43_alu.md R125). -/
theorem Effect.storedFlag_eq {i : Instr} {s t : State} (h : Effect i s t) {f : Flag}
    (hf : f ∉ flagsWritten i) (hu : f ≠ .u) : storedFlag f t.p = storedFlag f s.p := by
  cases h with
  | load hflags | mask hflags | add hflags | shiftAcc hflags | shiftMem hflags | bitTest hflags =>
    simp only [hflags, List.mem_cons, List.not_mem_nil, or_false, not_or] at hf
    simp [hf, hu]
  | store | jump | wait => rfl
  | trap hbrk =>
    subst hbrk
    simp only [flagsWritten, List.mem_cons, List.not_mem_nil, or_false, not_or] at hf
    simp [hf, hu]

/-- A flag outside the instruction's row reads as before (43_alu.md R125). -/
theorem Effect.readFlag_eq {i : Instr} {s t : State} (h : Effect i s t) {f : Flag}
    (hf : f ∉ flagsWritten i) : readFlag f t = readFlag f s :=
  readFlag_congr (h.storedFlag_eq hf)

/-- An instruction that writes no flag leaves P alone. -/
theorem Effect.p_eq {i : Instr} {s t : State} (h : Effect i s t) (hnone : flagsWritten i = []) :
    t.p = s.p := by
  cases h with
  | store | jump | wait => rfl
  | load hflags | mask hflags | add hflags | shiftAcc hflags | shiftMem hflags | bitTest hflags =>
    cases hflags.symm.trans hnone
  | trap hbrk => subst hbrk; cases hnone

/-- No effect reaches X or Y. -/
theorem Effect.xy_eq {i : Instr} {s t : State} (h : Effect i s t) : t.x = s.x ∧ t.y = s.y := by
  cases h with
  | trap => simp
  | load | mask | add | store | shiftAcc | shiftMem | bitTest | jump | wait => exact ⟨rfl, rfl⟩

/-- Only BRK pushes, so nothing else moves SP (10_state.md §4). -/
theorem Effect.sp_eq {i : Instr} {s t : State} (h : Effect i s t) (hbrk : i ≠ .brk) : t.sp = s.sp := by
  cases h with
  | trap h => exact absurd h hbrk
  | load | mask | add | store | shiftAcc | shiftMem | bitTest | jump | wait => rfl

/-- What an instruction takes from the budget lies in its row (40_execution.md R71). -/
theorem Effect.cost {i : Instr} {s t : State} (h : Effect i s t) :
    ∃ n : Nat, CostIn i n ∧ t.remaining = s.remaining - n := by
  cases h with
  | trap hbrk => exact ⟨7, by subst hbrk; exact costIn_exact rfl, by simp⟩
  | load _ _ hcost | mask _ _ hcost | add _ _ hcost | store _ _ hcost | shiftAcc _ _ hcost
    | shiftMem _ _ hcost | bitTest _ _ hcost | jump _ _ _ hcost | wait _ _ hcost => exact ⟨_, hcost, rfl⟩

/-- No row of 40_execution.md R71 costs less than 1 or more than 7. -/
theorem CostIn.bounds {i : Instr} {n : Nat} (h : CostIn i n) : 1 ≤ n ∧ n ≤ 7 := by
  have hrow : 1 ≤ (costRange i).1 ∧ (costRange i).2 ≤ 7 := by
    cases i <;> simp [costRange]
  exact ⟨Nat.le_trans hrow.1 h.1, Nat.le_trans h.2 hrow.2⟩

/-- A write to a mapped address is read back (20_memory.md R39). -/
theorem busRead_busWrite_same {c : Config} {a : Addr} (h : c.mapped a = true) (m : Memory) (v : Byte) :
    busRead c (busWrite c m a v) a = v := by
  simp [busRead, busWrite, h, read_write]

/-- A write to an address is not seen at any other, whatever is mapped (20_memory.md R39). -/
theorem busRead_busWrite_other {a b : Addr} (h : b ≠ a) (c : Config) (m : Memory) (v : Byte) :
    busRead c (busWrite c m a v) b = busRead c m b := by
  have hnat : b.toNat ≠ a.toNat := fun he => h (BitVec.eq_of_toNat_eq he)
  unfold busWrite
  split
  · simp only [busRead, read_write, if_neg hnat]
  · rfl

/-- Memory changes only at the addresses the instruction stores to (20_memory.md R50). -/
theorem Effect.memSameExcept {i : Instr} {s t : State} (h : Effect i s t) :
    memSameExcept (storedAddrs i s) s t := by
  intro b hb
  cases h with
  | load | mask | add | shiftAcc | bitTest | jump | wait => rfl
  | store _ hstored | shiftMem _ hstored =>
    exact busRead_busWrite_other (by simpa [hstored] using hb) Config.default s.mem _
  | trap hbrk =>
    subst hbrk
    simp only [storedAddrs, List.mem_cons, List.not_mem_nil, or_false, not_or] at hb
    obtain ⟨hhi, hlo, hp⟩ := hb
    rw [byteAt_eq, charge_mem, enterBreak_mem, busRead_busWrite_other hp, busRead_busWrite_other hlo,
      busRead_busWrite_other hhi, byteAt_eq]

/-- An instruction that stores nothing leaves the memory as it is. -/
theorem Effect.mem_eq {i : Instr} {s t : State} (h : Effect i s t) (hnone : storedAddrs i s = []) :
    t.mem = s.mem := by
  cases h with
  | load | mask | add | shiftAcc | bitTest | jump | wait => rfl
  | store _ hstored | shiftMem _ hstored => cases hstored.symm.trans hnone
  | trap hbrk => subst hbrk; cases hnone

/-- Settles O23: the flags by the instruction's effect, and U by the last flag write. -/
theorem flagsOutsideTheTableAreKept : Obligations.FlagsOutsideTheTableAreKept :=
  fun _ _ _ h => ⟨fun _ hf => (exec_effect h).readFlag_eq hf, (exec_effect h).p_eq,
    fun hwrites => exec_storedFlag_u hwrites h⟩

/-- D is in no row of the flag table (43_alu.md R125). -/
theorem d_not_mem_flagsWritten (i : Instr) : Flag.d ∉ flagsWritten i := by
  cases i <;> simp [flagsWritten]

/-- I and B are in no row of the flag table but BRK's (43_alu.md R125). -/
theorem i_b_not_mem_flagsWritten {i : Instr} (h : i ≠ .brk) :
    Flag.i ∉ flagsWritten i ∧ Flag.b ∉ flagsWritten i := by
  cases i <;> simp_all [flagsWritten]

/-- Settles O24: no effect reaches X or Y, and D is in no row of the flag table. -/
theorem noInstructionWritesXYOrD : Obligations.NoInstructionWritesXYOrD := by
  intro i s t h
  obtain ⟨hx, hy⟩ := (exec_effect h).xy_eq
  exact ⟨hx, hy, (exec_effect h).readFlag_eq (d_not_mem_flagsWritten i)⟩

/-- Settles O25: BRK by its entry sequence, every other instruction by the frame of its effect. -/
theorem onlyBreakChangesIBAndSp : Obligations.OnlyBreakChangesIBAndSp := by
  intro i s t h
  by_cases hbrk : i = .brk
  · subst hbrk
    rw [exec_brk] at h
    cases h
    refine .inl ⟨rfl, ?_, ?_, ?_⟩ <;> simp [Machine.readFlag_eq]
  · obtain ⟨hi, hb⟩ := i_b_not_mem_flagsWritten hbrk
    have he := exec_effect h
    exact .inr ⟨hbrk, he.readFlag_eq hi, he.readFlag_eq hb, he.sp_eq hbrk⟩

/-- Settles O26: only a jump and the trap entry write PC, and both transfer control. -/
theorem onlyBranchesAndBreakMovePc : Obligations.OnlyBranchesAndBreakMovePc := by
  intro i s t hstay h
  cases exec_effect h with
  | load | mask | add | store | shiftAcc | shiftMem | bitTest | wait => rfl
  | jump htransfer => cases hstay.symm.trans htransfer
  | trap hbrk => subst hbrk; cases hstay

/-- Settles O27: the memory's read-after-write law. -/
theorem memoryReadAfterWrite : Obligations.MemoryReadAfterWrite := read_write

/-- Settles O29: by the addresses the effect writes. -/
theorem memoryChangesOnlyWhereStored : Obligations.MemoryChangesOnlyWhereStored :=
  fun _ _ _ h => ⟨(exec_effect h).memSameExcept, (exec_effect h).mem_eq⟩

/-- Settles O55: the cost of the effect lies in the instruction's row. -/
theorem costsLieInTheTable : Obligations.CostsLieInTheTable := by
  intro i s t h
  obtain ⟨n, ⟨hlo, hhi⟩, ht⟩ := (exec_effect h).cost
  omega

/-- What a run of a meaning at another budget and run state gives: the same, at the same cost
(40_execution.md R72). -/
def IgnoresBudget (f : State → State) (s : State) : Prop :=
  ∃ n : Nat, (f s).remaining = s.remaining - n ∧ ∀ (r : Int) (q : RunState),
    f { s with remaining := r, run := q } = { f s with remaining := r - n, run := q }

/-- A branch ignores the budget: its flag and its target do not move with it (44_branch.md R126). -/
theorem branch_ignoresBudget (c : Config) (op : Byte) (f : Flag) (want : Bool) (rel8 : Byte) (s : State) :
    IgnoresBudget (branch c op f want rel8) s := by
  by_cases hf : readFlag f s = want
  · have htaken (r : Int) (q : RunState) : readFlag f { s with remaining := r, run := q } = want := hf
    refine ⟨cost c op false + 1 + (pageCross s.pc (relTarget rel8 s)).toNat, ?_, fun r q => ?_⟩
    · simp only [branch, if_pos hf, charge_remaining]
    · simp only [branch, if_pos hf, if_pos (htaken r q)]
      rfl
  · have hwait (r : Int) (q : RunState) : readFlag f { s with remaining := r, run := q } ≠ want := hf
    refine ⟨cost c op false, ?_, fun r q => ?_⟩
    · simp only [branch, if_neg hf, charge_remaining]
    · simp only [branch, if_neg hf, if_neg (hwait r q)]
      rfl

/-- Two states are equal when all their fields are (10_state.md R16). -/
theorem state_ext {s t : State} (ha : s.a = t.a) (hx : s.x = t.x) (hy : s.y = t.y) (hpc : s.pc = t.pc)
    (hsp : s.sp = t.sp) (hp : s.p = t.p) (hmem : s.mem = t.mem) (hrun : s.run = t.run)
    (hremaining : s.remaining = t.remaining) : s = t := by
  cases s
  cases t
  subst ha hx hy hpc hsp hp hmem hrun hremaining
  rfl

/-- The trap entry ignores the budget (45_system.md R135). -/
theorem brk_ignoresBudget (c : Config) (s : State) : IgnoresBudget (brkWith c) s := by
  refine ⟨cost c 0x00 false, ?_, fun r q => ?_⟩
  · rw [brkWith, charge_remaining, enterBreak_remaining]
  · apply state_ext <;> simp [brkWith]

/-- No meaning reads the budget or the run state (40_execution.md R72). -/
theorem execWith_ignoresBudget (c : Config) (i : Instr) (s : State) : IgnoresBudget (execWith c i) s := by
  cases i
  case bpl | bmi | bvc | bvs | bcc | bcs | bne | beq => exact branch_ignoresBudget _ _ _ _ _ s
  case brk => exact brk_ignoresBudget c s
  all_goals exact ⟨_, rfl, fun _ _ => rfl⟩

/-- Settles O56: the difference of the budgets is the cost. -/
theorem instructionsIgnoreTheBudget : Obligations.InstructionsIgnoreTheBudget := by
  intro i s t r q h
  rw [exec_eq_execWith] at h ⊢
  cases h
  obtain ⟨n, hcost, hrun⟩ := execWith_ignoresBudget Config.default i s
  rw [hrun, hcost, Int.sub_sub_self]

end Sys2Proof.Machine
end

section
/-! SUPPORT. Fetching one whole instruction is decoding the bytes at PC (41_addressing.md §1,
30_encoding.md). -/

namespace Sys2Proof

/-- An instruction's bytes are as many as its mode's format says (30_encoding.md R56). -/
theorem encode_length (i : Instr) : (encode i).length = instrLength i := by cases i <;> rfl

/-- The instruction of an opcode byte is as long as the format of that byte (30_encoding.md R56). -/
theorem instrLength_instrOf (op b1 b2 : Byte) :
    instrLength (instrOf op b1 b2) = formatLength (formatOf op) := by
  rw [← encode_length, (instrOf_faithful op b1 b2).1]
  cases formatOf op <;> rfl

namespace Machine

/-- PC after a fetch is past the instruction's bytes, and nothing else moves (41_addressing.md R77). -/
theorem fetchInstr_snd (c : Config) (s : State) :
    (fetchInstr c s).2 = { s with pc := s.pc + BitVec.ofNat 16 (instrLength (fetchInstr c s).1) } := by
  rw [fetchInstr_eq]
  cases hf : formatOf (memRead c s.pc s) with
  | op | op8 | op16 => simp [instrLength_instrOf, hf, formatLength, BitVec.add_assoc]

/-- The instruction fetched is what the bytes at PC decode to (30_encoding.md R61). -/
theorem decode_fetched (c : Config) (s : State) :
    ∃ rest, decode [memRead c s.pc s, memRead c (s.pc + 1) s, memRead c (s.pc + 2) s] =
      .ok (fetchInstr c s).1 rest := by
  have htwo : s.pc + 1 + 1 = s.pc + 2 := BitVec.add_assoc s.pc 1 1
  rw [fetchInstr_eq, htwo]
  cases hf : formatOf (memRead c s.pc s) with
  | op | op8 | op16 =>
    simp only [decode, hf]
    exact ⟨_, rfl⟩

/-- Bytes at PC that decode are the instruction the next fetch gives (30_encoding.md R61). -/
theorem fetchInstr_fst_of_decode {c : Config} {s : State} {i : Instr} {rest : List Byte}
    (h : decode [memRead c s.pc s, memRead c (s.pc + 1) s, memRead c (s.pc + 2) s] = .ok i rest) :
    (fetchInstr c s).1 = i := by
  obtain ⟨rest', hdec⟩ := decode_fetched c s
  rw [hdec] at h
  exact (DecodeResult.ok.inj h).1

/-- Settles O9: the low byte comes from PC and the high byte from the next address, which is 0x0000 after
0xFFFF. -/
theorem fetchWordIsLittleEndian : Obligations.FetchWordIsLittleEndian := by
  intro c s
  have hword : (fetchWord c s).1.toNat = (memRead c (s.pc + 1) s).toNat * 256 + (memRead c s.pc s).toNat :=
    wordOf_toNat _ _
  refine ⟨hword, ?_, fun hpc => ?_⟩
  · show ({ s with pc := s.pc + 1 + 1 } : State) = _
    rw [BitVec.add_assoc]
    rfl
  · rw [hword, hpc]
    rfl

/-- Bytes stored one after another are read back at their addresses, at the defaults (20_memory.md R38). -/
theorem busRead_storeBytes_three (a : Addr) (b0 b1 b2 : Byte) (m : Memory) :
    busRead Config.default (storeBytes Config.default a [b0, b1, b2] m) a = b0 ∧
    busRead Config.default (storeBytes Config.default a [b0, b1, b2] m) (a + 1) = b1 ∧
    busRead Config.default (storeBytes Config.default a [b0, b1, b2] m) (a + 2) = b2 := by
  have h01 : a ≠ a + 1 := by bv_omega
  have h02 : a ≠ a + 1 + 1 := by bv_omega
  have h12 : a + 1 ≠ a + 1 + 1 := by bv_omega
  have h22 : a + 2 = a + 1 + 1 := by bv_omega
  simp only [storeBytes, busRead_busWrite_default, h22, if_pos, if_neg h01, if_neg h02, if_neg h12,
    and_self]

/-- `withFetchWord` places the word's bytes at PC, and PC is as before. -/
theorem withFetchWord_spec (s : State) (nbits w : Nat) :
    (s.withFetchWord nbits w).mem = storeBytes Config.default s.pc (tableBytes nbits w) s.mem ∧
    (s.withFetchWord nbits w).pc = s.pc ∧ (s.withFetchWord nbits w).run = .running ∧
    0 < (s.withFetchWord nbits w).remaining := by
  obtain ⟨hrun, hbudget, hwake⟩ :=
    wake_spec { s with mem := storeBytes Config.default s.pc (tableBytes nbits w) s.mem }
  exact ⟨by rw [State.withFetchWord, hwake], by rw [State.withFetchWord, hwake], hrun, hbudget⟩

/-- Settles O11: the three bytes stored at PC are the three bytes the fetch decodes. -/
theorem fetchWordIsFetchedNext : Obligations.FetchWordIsFetchedNext := by
  intro s nbits w i h
  obtain ⟨hmem, hpc, hrun, hbudget⟩ := withFetchWord_spec s nbits w
  refine ⟨?_, hrun, hbudget, hpc⟩
  have hdec : ∃ rest, decode (tableBytes nbits w) = .ok i rest := by
    unfold decodeTableWord at h
    split at h
    · cases h; exact ⟨_, ‹_›⟩
    · cases h
  obtain ⟨rest, hdec⟩ := hdec
  obtain ⟨h0, h1, h2⟩ := busRead_storeBytes_three s.pc (BitVec.ofNat 8 (w % 2 ^ nbits))
    (BitVec.ofNat 8 (w % 2 ^ nbits / 256)) (BitVec.ofNat 8 (w % 2 ^ nbits / 65536)) s.mem
  refine fetchInstr_fst_of_decode (rest := rest) ?_
  simp only [memRead, hmem, hpc]
  exact (congrArg decode (by rw [tableBytes, h0, h1, h2])).trans hdec

end Machine

end Sys2Proof
end

section
/-! SUPPORT. What a step can do, said once, and the invariant it keeps (40_execution.md §1). -/

namespace Sys2Proof.Machine

/-- A step is idle, only returns to Idle, or runs the instruction at PC and settles (40_execution.md R67). -/
theorem step_cases (s : State) :
    (s.run = .idle ∧ step s = .next s) ∨
    (s.run = .running ∧ s.remaining ≤ 0 ∧ step s = .next { s with run := .idle }) ∨
    (s.run = .running ∧ 0 < s.remaining ∧ ∃ t,
      exec (fetchInstr Config.default s).1 (fetchInstr Config.default s).2 = .next t ∧
      step s = .next (settle t)) := by
  rcases loopIteration_cases Config.default exec s with h | ⟨hrun, hrem, h⟩ | ⟨hrun, hrem, h⟩
  · exact .inl h
  · exact .inr (.inl ⟨hrun, Int.not_lt.mp hrem, h⟩)
  · refine .inr (.inr ⟨hrun, hrem, _, exec_eq_execWith _ _, ?_⟩)
    rw [step, h, exec_eq_execWith]
    rfl

/-- A step while Running with budget left. -/
theorem step_running {s : State} (hrun : s.run = .running) (hrem : 0 < s.remaining) :
    ∃ t, exec (fetchInstr Config.default s).1 (fetchInstr Config.default s).2 = .next t ∧
      step s = .next (settle t) := by
  rcases step_cases s with ⟨hidle, -⟩ | ⟨-, hle, -⟩ | ⟨-, -, h⟩
  · cases hidle.symm.trans hrun
  · omega
  · exact h

/-- With budget left the loop's test changes nothing (40_execution.md R67). -/
theorem settle_of_pos {s : State} (h : 0 < s.remaining) : settle s = s := if_neg (Int.not_le.mpr h)

/-- Settles O7: the first two cases of a step. -/
theorem stepWithoutBudgetRunsNothing : Obligations.StepWithoutBudgetRunsNothing := by
  constructor
  · intro s hidle
    rcases step_cases s with ⟨-, h⟩ | ⟨hrun, -⟩ | ⟨hrun, -⟩
    · exact h
    · cases hidle.symm.trans hrun
    · cases hidle.symm.trans hrun
  · intro s hrun hle
    rcases step_cases s with ⟨hidle, -⟩ | ⟨-, -, h⟩ | ⟨-, hlt, -⟩
    · cases hidle.symm.trans hrun
    · exact h
    · omega

/-- Settles O8: each case of a step answers a next state. -/
theorem everyStepAnswersANextState : Obligations.EveryStepAnswersANextState := by
  intro s
  rcases step_cases s with ⟨-, h⟩ | ⟨-, -, h⟩ | ⟨-, -, t, -, h⟩ <;> exact ⟨_, h⟩

/-- Settles O6: the fetch is the decoding of the bytes at PC and leaves PC past them, and `settle` is the
loop's test. -/
theorem stepRunsTheDecodedInstruction : Obligations.StepRunsTheDecodedInstruction := by
  intro s i rest hrun hrem hdec
  obtain ⟨t, hexec, hstep⟩ := step_running hrun hrem
  rw [fetchInstr_snd, fetchInstr_fst_of_decode hdec] at hexec
  exact ⟨t, hexec, hstep⟩

/-- The clauses of the invariant. -/
theorem inv_iff (s : State) :
    s.inv = true ↔ Memory.wf s.mem = true ∧ storedFlag .u s.p = true ∧ budgetOk s = true := by
  simp only [State.inv, Bool.and_eq_true, and_assoc]

/-- The budget inside a call (10_state.md R34). -/
theorem budgetOk_running {s : State} (hrun : s.run = .running) :
    budgetOk s = true ↔ 0 < s.remaining ∧ s.remaining ≤ 255 := by
  simp [budgetOk, hrun]

/-- The budget between calls (40_execution.md R73). -/
theorem budgetOk_idle {s : State} (hidle : s.run = .idle) :
    budgetOk s = true ↔ -6 ≤ s.remaining ∧ s.remaining ≤ 0 := by
  simp [budgetOk, hidle]

/-- An instruction leaves a stored U at 1 (10_state.md R29). -/
theorem exec_keeps_u {i : Instr} {s t : State} (h : exec i s = .next t) (hu : storedFlag .u s.p = true) :
    storedFlag .u t.p = true := by
  by_cases hnone : Claims.flagsWritten i = []
  · rw [(exec_effect h).p_eq hnone]
    exact hu
  · exact exec_storedFlag_u hnone h

/-- A step keeps the budget in its range, and while Running it uses some of it: an instruction costs at
least 1 and at most 7 (40_execution.md R72, R73). -/
theorem step_budgetOk {s t : State} (hb : budgetOk s = true) (h : step s = .next t) :
    budgetOk t = true ∧ (s.run = .running → t.remaining < s.remaining) := by
  rcases step_cases s with ⟨hidle, hs⟩ | ⟨hrun, hle, -⟩ | ⟨hrun, hlt, u, hexec, hs⟩
  · cases hs.symm.trans h
    exact ⟨hb, fun hrun => by cases hidle.symm.trans hrun⟩
  · have := ((budgetOk_running hrun).mp hb).1
    omega
  · cases hs.symm.trans h
    obtain ⟨n, hn, hcost⟩ := (exec_effect hexec).cost
    obtain ⟨hn1, hn7⟩ := hn.bounds
    obtain ⟨-, -, -, -, -, -, hfrun, hfrem⟩ := fetchInstr_fields Config.default s
    have hmax := ((budgetOk_running hrun).mp hb).2
    have hurun : u.run = .running := (exec_run_wf _ _ _ hexec).1.trans (hfrun.trans hrun)
    rw [hfrem] at hcost
    refine ⟨?_, fun _ => by rw [settle_remaining]; omega⟩
    by_cases hu : u.remaining ≤ 0
    · rw [budgetOk_idle (by rw [settle_run, if_pos hu]), settle_remaining]
      omega
    · rw [budgetOk_running (by rw [settle_run, if_neg hu, hurun]), settle_remaining]
      omega

/-- Settles O15: a step without an instruction moves the run state at most; one with an instruction keeps
the memory's form and U, since each write does, and the budget by its cost. -/
theorem stepKeepsTheInvariant : Obligations.StepKeepsTheInvariant := by
  intro s t hinv h
  obtain ⟨hwf, hu, hb⟩ := (inv_iff s).mp hinv
  have hbudget := (step_budgetOk hb h).1
  rcases step_cases s with ⟨-, hs⟩ | ⟨-, -, hs⟩ | ⟨-, -, u, hexec, hs⟩ <;> cases hs.symm.trans h
  · exact hinv
  · exact (inv_iff _).mpr ⟨hwf, hu, hbudget⟩
  · obtain ⟨hfmem, hfp, -⟩ := fetchInstr_fields Config.default s
    rw [← hfmem] at hwf
    rw [← hfp] at hu
    refine (inv_iff _).mpr ⟨?_, ?_, hbudget⟩
    · rw [settle_mem]
      exact (exec_run_wf _ _ _ hexec).2 hwf
    · rw [settle_p]
      exact exec_keeps_u hexec hu

end Sys2Proof.Machine
end

section
/-! SUPPORT. Whole execute calls: the steps until the budget is used up (40_execution.md §1). -/

namespace Sys2Proof.Machine

/-- Running no step of the machine. -/
theorem run_zero (s : State) : Host.Core.run Sys2Proof.core 0 s = .next s := rfl

/-- Running one step more of any machine begins with that step. -/
theorem coreRun_succ {M : Host.Core} {s t : M.State} (h : M.step s = .next t) (k : Nat) :
    M.run (k + 1) s = M.run k t := by
  rw [Host.Core.run, h]

/-- Running one step more of this machine begins with that step. -/
theorem run_succ {s t : State} (h : step s = .next t) (k : Nat) :
    Host.Core.run Sys2Proof.core (k + 1) s = Host.Core.run Sys2Proof.core k t :=
  coreRun_succ (M := Sys2Proof.core) h k

/-- Running to Idle within `n` steps from `s` takes `k` steps and ends in `t`; before each of them the core
is Running with budget left (70_reset_and_hazards.md §5). -/
structure RunsToIdle (n : Nat) (s : State) (k : Nat) (t : State) : Prop where
  bound : k ≤ n
  zero_iff : k = 0 ↔ s.run = .idle
  result : runToIdle step n s = .next t
  steps : Host.Core.run Sys2Proof.core k s = .next t
  idle : t.run = .idle
  budget : budgetOk t = true
  before : ∀ j < k, ∃ u : State,
    Host.Core.run Sys2Proof.core j s = .next u ∧ u.run = .running ∧ 0 < u.remaining

/-- An Idle core has run to Idle. -/
theorem RunsToIdle.of_idle {s : State} (hidle : s.run = .idle) (hb : budgetOk s = true) (n : Nat) :
    RunsToIdle n s 0 s where
  bound := Nat.zero_le n
  zero_iff := iff_of_true rfl hidle
  result := runToIdle_idle step n s hidle
  steps := run_zero s
  idle := hidle
  budget := hb
  before := fun _ h => absurd h (Nat.not_lt_zero _)

/-- One step from a Running core, before the steps that follow. -/
theorem RunsToIdle.cons {n k : Nat} {s u t : State} (hrun : s.run = .running) (hrem : 0 < s.remaining)
    (hstep : step s = .next u) (h : RunsToIdle n u k t) : RunsToIdle (n + 1) s (k + 1) t where
  bound := Nat.succ_le_succ h.bound
  zero_iff := iff_of_false (Nat.succ_ne_zero k) (by simp [hrun])
  result := (runToIdle_running step n s u hrun hstep).trans h.result
  steps := (run_succ hstep k).trans h.steps
  idle := h.idle
  budget := h.budget
  before := fun j hj => by
    cases j with
    | zero => exact ⟨s, run_zero s, hrun, hrem⟩
    | succ j =>
      rw [run_succ hstep j]
      exact h.before j (Nat.lt_of_succ_lt_succ hj)

/-- As many steps as the budget suffice, since every step uses some of it (60_exceptions.md R150). -/
theorem exists_runsToIdle (n : Nat) (s : State) (hb : budgetOk s = true)
    (hn : s.run = .running → s.remaining ≤ n) : ∃ k t, RunsToIdle n s k t := by
  induction n generalizing s with
  | zero =>
    cases hrun : s.run with
    | idle => exact ⟨0, s, .of_idle hrun hb 0⟩
    | running =>
      have := ((budgetOk_running hrun).mp hb).1
      have := hn hrun
      omega
  | succ n ih =>
    cases hrun : s.run with
    | idle => exact ⟨0, s, .of_idle hrun hb _⟩
    | running =>
      have hrem := ((budgetOk_running hrun).mp hb).1
      obtain ⟨t, -, hstep⟩ := step_running hrun hrem
      obtain ⟨hbt, hless⟩ := step_budgetOk hb hstep
      have hless := hless hrun
      have hn := hn hrun
      obtain ⟨k, u, h⟩ := ih (settle t) hbt (fun _ => by omega)
      exact ⟨k + 1, u, h.cons hrun hrem hstep⟩

/-- Entering a call puts the budget in its range (40_execution.md R67). -/
theorem budgetOk_beginExecute (budget : Byte) (s : State) : budgetOk (beginExecute budget s) = true := by
  have := budget.isLt
  by_cases hzero : budget.toNat = 0
  · rw [budgetOk_idle (by rw [beginExecute_run, if_pos hzero]), beginExecute_remaining]
    omega
  · rw [budgetOk_running (by rw [beginExecute_run, if_neg hzero]), beginExecute_remaining]
    omega

/-- Every execute call runs to Idle (60_exceptions.md R150). -/
theorem execute_runsToIdle (budget : Byte) (s : State) :
    ∃ k t, RunsToIdle budget.toNat (beginExecute budget s) k t :=
  exists_runsToIdle _ _ (budgetOk_beginExecute budget s) fun _ => Int.le_of_eq (beginExecute_remaining s budget)

/-- A call with budget 0 is Idle at once (40_execution.md R67, D9). -/
theorem beginExecute_idle_iff (budget : Byte) (s : State) :
    (beginExecute budget s).run = .idle ↔ budget = 0x00 := by
  rw [beginExecute_run, ← BitVec.toNat_inj]
  split <;> simp_all

/-- Settles O17: a call runs to Idle, where the budget's range is -6..0; with budget 0 that is where it
begins. -/
theorem executeEndsIdleWithItsOvershoot : Obligations.ExecuteEndsIdleWithItsOvershoot := by
  intro budget s
  obtain ⟨k, t, h⟩ := execute_runsToIdle budget s
  obtain ⟨hlo, hhi⟩ := (budgetOk_idle h.idle).mp h.budget
  refine ⟨t, h.result, h.idle, hlo, hhi, fun hzero => ?_⟩
  subst hzero
  have hstart : execute 0x00 s = .next { s with run := .idle, remaining := 0 } := rfl
  exact (Host.Outcome.next.inj (hstart.symm.trans h.result)).symm

/-- Settles O18: the steps of a call are those of running to Idle. -/
theorem executeIsStepsUntilTheBudgetIsUsed : Obligations.ExecuteIsStepsUntilTheBudgetIsUsed := by
  intro budget s
  obtain ⟨k, t, h⟩ := execute_runsToIdle budget s
  exact ⟨k, t, h.bound, h.zero_iff.trans (beginExecute_idle_iff budget s), h.result, h.steps, h.idle,
    ((budgetOk_idle h.idle).mp h.budget).2, h.before⟩

/-- A fetch does not read the budget or the run state. -/
theorem fetchInstr_with_budget (c : Config) (s : State) (r : Int) (q : RunState) :
    fetchInstr c { s with remaining := r, run := q } =
      ((fetchInstr c s).1, { (fetchInstr c s).2 with remaining := r, run := q }) := by
  rw [fetchInstr_eq c s, fetchInstr_eq]
  cases hf : formatOf (memRead c s.pc s) with
  | op | op8 | op16 =>
    have hf' : formatOf (memRead c s.pc { s with remaining := r, run := q }) = _ := hf
    rw [hf']
    rfl

/-- Settles O19: the one step of the call leaves nothing of the budget, since an instruction costs at
least 1. -/
theorem budgetOfOneRunsOneInstruction : Obligations.BudgetOfOneRunsOneInstruction := by
  intro s
  obtain ⟨t, hexec, hstep⟩ :=
    step_running (s := { s with remaining := 1, run := .running }) rfl Int.one_pos
  rw [fetchInstr_with_budget] at hexec
  obtain ⟨n, hn, hcost⟩ := (exec_effect hexec).cost
  have hpos := hn.bounds.1
  have hused : t.remaining ≤ 0 := by
    rw [hcost]
    show (1 : Int) - n ≤ 0
    omega
  refine ⟨t, hexec, (runToIdle_running step 0 _ _ rfl hstep).trans ?_⟩
  rw [settle, if_pos hused]
  rfl

end Sys2Proof.Machine
end

section
/-! SUPPORT. The core after reset with nothing placed in memory (70_reset_and_hazards.md §1). -/

namespace Sys2Proof.Machine

/-- The memory is zero where the next fetch and the vector read, and the core is about to run. -/
structure ReadyToBreak (s : State) : Prop where
  running : s.run = .running
  opcode : byteAt s s.pc = 0x00
  first : byteAt s 0x0000 = 0x00
  vectorLo : byteAt s 0xFFFE = 0x00
  vectorHi : byteAt s 0xFFFF = 0x00
  status : s.p = 0x24

/-- The byte 0x00 at PC is a BRK of one byte (30_encoding.md R60). -/
theorem fetchInstr_brk {s : State} (h : byteAt s s.pc = 0x00) :
    fetchInstr Config.default s = (.brk, { s with pc := s.pc + 1 }) := by
  have hop : memRead Config.default s.pc s = 0x00 := h
  rw [fetchInstr_eq, hop]
  rfl

/-- Address 0x0000 is not in the stack page. -/
theorem zero_ne_stackAddr (sp : Byte) : (0x0000 : Addr) ≠ stackAddr sp := by
  intro h
  have h : 0 = 0x0100 + sp.toNat := (congrArg BitVec.toNat h).trans (stackAddr_toNat sp)
  omega

/-- BRK leaves every byte outside the stack page (45_system.md R135). -/
theorem exec_brk_byteAt {s t : State} (h : exec .brk s = .next t) {a : Addr}
    (ha : ∀ sp, a ≠ stackAddr sp) : byteAt t a = byteAt s a :=
  (exec_effect h).memSameExcept a (by simp [Claims.storedAddrs, ha])

/-- What BRK leaves in PC, SP, P and the budget (45_system.md R135). -/
theorem exec_brk_fields {s t : State} (h : exec .brk s = .next t) :
    t.pc = wordOf (byteAt t 0xFFFE) (byteAt t 0xFFFF) ∧ t.sp = s.sp - 3 ∧
    t.p = setFlag .i true (setFlag .b false (setFlag .b true s.p)) ∧ t.remaining = s.remaining - 7 := by
  rw [exec_brk] at h
  cases h
  simp

/-- What BRK leaves alone (45_system.md R135). -/
theorem exec_brk_frame {s t : State} (h : exec .brk s = .next t) :
    t.a = s.a ∧ t.x = s.x ∧ t.y = s.y ∧ t.run = s.run := by
  rw [exec_brk] at h
  cases h
  simp

/-- `t` is `s` after `k` BRKs over zeroed memory: PC 0, SP three lower and 7 cycles less for each
(45_system.md R135). -/
structure AfterBreaks (k : Nat) (s t : State) : Prop where
  pc : t.pc = 0x0000
  sp : t.sp = s.sp - BitVec.ofNat 8 (3 * k)
  status : t.p = 0x24
  a : t.a = s.a
  x : t.x = s.x
  y : t.y = s.y
  remaining : t.remaining = s.remaining - 7 * k

/-- One BRK and then `k` more are `k + 1`. -/
theorem AfterBreaks.cons {k : Nat} {s t u : State} (h : AfterBreaks 1 s t) (h' : AfterBreaks k t u) :
    AfterBreaks (k + 1) s u where
  pc := h'.pc
  sp := by rw [h'.sp, h.sp, BitVec.sub_sub, ← BitVec.ofNat_add, Nat.mul_one, Nat.mul_succ, Nat.add_comm]
  status := h'.status
  a := h'.a.trans h.a
  x := h'.x.trans h.x
  y := h'.y.trans h.y
  remaining := by
    have := h.remaining
    have := h'.remaining
    omega

/-- The loop's test moves the run state only. -/
theorem AfterBreaks.settle {k : Nat} {s t : State} (h : AfterBreaks k s t) :
    AfterBreaks k s (Machine.settle t) := by
  constructor <;> simp [h.pc, h.sp, h.status, h.a, h.x, h.y, h.remaining]

/-- Over zeroed memory a step is a BRK that leaves the core ready for the next one. -/
theorem ReadyToBreak.step {s : State} (h : ReadyToBreak s) (hrem : 0 < s.remaining) :
    ∃ t, step s = .next (settle t) ∧ ReadyToBreak t ∧ AfterBreaks 1 s t := by
  obtain ⟨t, hexec, hstep⟩ := step_running h.running hrem
  rw [fetchInstr_brk h.opcode] at hexec
  obtain ⟨hpc, hsp, hp, hrem'⟩ := exec_brk_fields hexec
  obtain ⟨ha, hx, hy, hrun⟩ := exec_brk_frame hexec
  have hlo := (exec_brk_byteAt hexec fun sp => (vector_ne_stackAddr sp).1).trans h.vectorLo
  have hhi := (exec_brk_byteAt hexec fun sp => (vector_ne_stackAddr sp).2).trans h.vectorHi
  have hfirst := (exec_brk_byteAt hexec zero_ne_stackAddr).trans h.first
  rw [hlo, hhi] at hpc
  have hstatus : t.p = 0x24 := by
    rw [hp]
    exact congrArg (fun p => setFlag .i true (setFlag .b false (setFlag .b true p))) h.status
  exact ⟨t, hstep, ⟨hrun.trans h.running, by rw [hpc]; exact hfirst, hfirst, hlo, hhi, hstatus⟩,
    ⟨hpc, hsp, hstatus, ha, hx, hy, hrem'⟩⟩

/-- `n + 1` steps over zeroed memory are `n + 1` BRKs. -/
theorem ReadyToBreak.run {n : Nat} {s : State} (h : ReadyToBreak s)
    (hrem : 7 * ((n : Int) + 1) ≤ s.remaining) :
    ∃ t, Host.Core.run Sys2Proof.core (n + 1) s = .next t ∧ AfterBreaks (n + 1) s t := by
  induction n generalizing s with
  | zero =>
    obtain ⟨t, hstep, -, hafter⟩ := h.step (by omega)
    exact ⟨_, run_succ hstep 0, hafter.settle⟩
  | succ n ih =>
    obtain ⟨t, hstep, hready, hafter⟩ := h.step (by omega)
    have hleft := hafter.remaining
    have hsettle := settle_of_pos (s := t) (by omega)
    obtain ⟨u, hrun, hafter'⟩ := ih hready (by omega)
    rw [hsettle] at hstep
    exact ⟨u, (run_succ hstep _).trans hrun, hafter.cons hafter'⟩

/-- Settles O20: the core after reset is ready to break, from any start. -/
theorem zeroedMemoryRunsBreaks : Obligations.ZeroedMemoryRunsBreaks := by
  intro start n budget hbudget
  have hready : ReadyToBreak
      { State.resetAt Config.default start with run := .running, remaining := budget } :=
    ⟨rfl, rfl, rfl, rfl, rfl, rfl⟩
  obtain ⟨t, hrun, h⟩ := hready.run hbudget
  exact ⟨t, hrun, h.pc, h.sp, h.status, h.a, h.x, h.y, by simpa using h.remaining⟩

end Sys2Proof.Machine
end

section
/-! SUPPORT. The Bus, the stack and the addressing modes (20_memory.md, 41_addressing.md). -/

namespace Sys2Proof.Machine

/-- Settles O28: a mapped address goes through to the memory, an unmapped one does not. -/
theorem busIsAFilter : Obligations.BusIsAFilter := by
  refine fun c m a b v => ⟨fun h => busRead_busWrite_same h m v, fun h => ⟨?_, ?_⟩,
    fun h => busRead_busWrite_other h.symm c m v⟩
  · simp [busRead, h]
  · simp [busWrite, h]

/-- Settles O33: each field of `pop` by its definition, and SP by the number of its byte sum. -/
theorem popIncrementsThenReads : Obligations.PopIncrementsThenReads :=
  fun s => ⟨rfl, rfl, BitVec.toNat_add s.sp 1⟩

/-- A pop reads the byte above SP and moves SP there (20_memory.md R54). -/
theorem pop_eq (s : State) : pop Config.default s =
    (byteAt s (stackAddr (s.sp + 1)), { s with sp := s.sp + 1 }) := rfl

/-- Settles O34: each pop reads where its push wrote, and the pushes after it wrote elsewhere. -/
theorem stackIsLastInFirstOut : Obligations.StackIsLastInFirstOut := by
  intro b1 b2 b3 s
  have hback (v : Byte) : v - 1 + 1 = v := BitVec.sub_add_cancel v 1
  have hnext (v : Byte) : v ≠ v - 1 := by bv_omega
  have htwo : s.sp ≠ s.sp - 1 - 1 := by bv_omega
  simp only [pop_eq, push_sp, hback, byteAt_eq, push_mem, busRead_busWrite_default, stackAddr_inj, hnext,
    htwo, if_true, if_false, and_self]

/-- The sum of an indexed address wraps at 0xFFFF (41_addressing.md R84; D11). -/
theorem indexed_addr_toNat (base : Addr) (index : Byte) :
    (indexed base index).addr.toNat = (base.toNat + index.toNat) % 65536 := by
  rw [indexed, BitVec.toNat_add, zext16_toNat]

/-- An indexed address crosses when its page is not the base's (41_addressing.md R91). -/
theorem indexed_crossed (base : Addr) (index : Byte) :
    (indexed base index).crossed =
      decide ((base.toNat + index.toNat) % 65536 / 256 ≠ base.toNat / 256) := by
  rw [← indexed_addr_toNat, ← Bool.coe_iff_coe, decide_eq_true_iff, ne_comm]
  exact pageCrossComparesHighBytes base _

/-- Settles O36: the byte sum wraps at 256 before it is widened. -/
theorem zeroPageAddresses : Obligations.ZeroPageAddresses :=
  fun b1 s => ⟨zext16_toNat b1, rfl, (zext16_toNat _).trans (BitVec.toNat_add b1 s.x), rfl,
    (zext16_toNat _).trans (BitVec.toNat_add b1 s.y), rfl⟩

/-- Settles O37: the indexed sum on the operand word. -/
theorem absoluteAddresses : Obligations.AbsoluteAddresses :=
  fun w s => ⟨rfl, rfl, indexed_addr_toNat w s.x, indexed_crossed w s.x, indexed_addr_toNat w s.y,
    indexed_crossed w s.y⟩

/-- Settles O39: the indexed sum on the pointer. -/
theorem indirectIndexedAddresses : Obligations.IndirectIndexedAddresses :=
  fun _ _ s => ⟨indexed_addr_toNat _ s.y, indexed_crossed _ s.y⟩

end Sys2Proof.Machine
end

section
/-! SUPPORT. Reset, the status register and the host's operations (10_state.md, 70_reset_and_hazards.md). -/

namespace Sys2Proof.Machine

/-- Settles O21: each flag is its stored bit, but for U. -/
theorem statusRegisterLayout : Obligations.StatusRegisterLayout :=
  fun s => ⟨readFlag_eq .c s, readFlag_eq .z s, readFlag_eq .i s, readFlag_eq .d s, readFlag_eq .b s,
    readFlag_eq .u s, readFlag_eq .v s, readFlag_eq .n s⟩

/-- Settles O12: each field as `resetAt` writes it, and the flags as the bits of 0x24. -/
theorem resetLeavesTheStatedValues : Obligations.ResetLeavesTheStatedValues :=
  ⟨rfl, rfl, rfl, rfl, rfl, fun f => by cases f <;> decide, rfl, fun _ => rfl, rfl⟩

/-- Every state a reset leaves meets the invariant (10_state.md R36). -/
theorem inv_resetAt (start : Addr) : (State.resetAt Config.default start).inv = true :=
  (inv_iff _).mpr ⟨wf_reset _ start, by rw [reset_p]; decide, rfl⟩

/-- Settles O14: RESET_PC is one of the start addresses. -/
theorem resetMeetsTheInvariant : Obligations.ResetMeetsTheInvariant := inv_resetAt _

/-- A reset of an Idle device (70_reset_and_hazards.md R151, R153). -/
theorem hostOp_reset {d : Device} (hidle : d.core.run = .idle) (start : Option Addr) :
    hostOp (.reset start) d = .next (⟨hostReset Config.default start, true⟩, .unit) := by
  simp only [hostOp, hidle]

/-- Settles O13: what a reset of an Idle device leaves does not mention the device. -/
theorem resetForgetsEverything : Obligations.ResetForgetsEverything := by
  intro d e start hd he
  have hsame (o : Option Addr) : hostOp (.reset o) d = hostOp (.reset o) e :=
    (hostOp_reset hd o).trans (hostOp_reset he o).symm
  exact ⟨hsame _, hsame _, hostOp_reset hd none, rfl, _, hostOp_reset hd _, rfl, rfl, fun _ => rfl⟩

/-- A host read of an Idle device (70_reset_and_hazards.md R158). -/
theorem hostOp_read {d : Device} (hidle : d.core.run = .idle) (a : Addr) :
    hostOp (.read a) d = .next (d, .byte (byteAt d.core a)) := by
  simp only [hostOp, hidle]
  rfl

/-- A host write to an Idle device (70_reset_and_hazards.md R158). -/
theorem hostOp_write {d : Device} (hidle : d.core.run = .idle) (a : Addr) (v : Byte) :
    hostOp (.write a v) d = .next ({ d with core := memWrite Config.default a v d.core }, .unit) := by
  simp only [hostOp, hidle]

/-- A host read of a flag (70_reset_and_hazards.md R158). -/
theorem hostOp_readFlag {d : Device} (hidle : d.core.run = .idle) (f : Flag) :
    hostOp (.readFlag f) d = .next (d, .bit (readFlag f d.core)) := by
  simp only [hostOp, hidle]

/-- A host read of a register (70_reset_and_hazards.md R158). -/
theorem hostOp_getReg {d : Device} (hidle : d.core.run = .idle) (r : Reg) :
    hostOp (.getReg r) d = .next (d, getReg r d.core) := by
  simp only [hostOp, hidle]

/-- A host write of a register (70_reset_and_hazards.md R158). -/
theorem hostOp_setReg {d : Device} (hidle : d.core.run = .idle) (w : RegWrite) :
    hostOp (.setReg w) d = .next ({ d with core := setReg w d.core }, .unit) := by
  simp only [hostOp, hidle]

/-- Before the first reset an execute call is refused (70_reset_and_hazards.md R156). -/
theorem hostOp_execute_refused {d : Device} (hidle : d.core.run = .idle) (hreset : d.resetDone = false)
    (budget : Byte) : hostOp (.execute budget) d = .refused .executeBeforeReset := by
  simp [hostOp, hidle, hreset]

/-- An execute call after a reset packs the state it ends in with the remainder (40_execution.md R73). -/
theorem hostOp_execute {d : Device} (hidle : d.core.run = .idle) (hreset : d.resetDone = true)
    {budget : Byte} {t : State} (h : execute budget d.core = .next t) :
    hostOp (.execute budget) d = .next ({ d with core := t }, .int t.remaining) := by
  simp [hostOp, hidle, hreset, h, executeResult]

/-- While Running every operation is refused (70_reset_and_hazards.md R159). -/
theorem hostOp_running {d : Device} (hrun : d.core.run = .running) (op : HostOp) :
    hostOp op d = .refused .hostOpWhileRunning := by
  simp only [hostOp, hrun]

/-- A register write leaves everything the invariant speaks of, and the run state. -/
theorem setReg_frame (w : RegWrite) (s : State) :
    (setReg w s).inv = s.inv ∧ (setReg w s).run = s.run := by
  cases w <;> exact ⟨rfl, rfl⟩

/-- Writing P with U stored as 1 keeps the invariant. -/
theorem inv_with_p {s : State} (hinv : s.inv = true) {p : Byte} (hu : storedFlag .u p = true) :
    ({ s with p := p } : State).inv = true := by
  obtain ⟨hwf, -, hb⟩ := (inv_iff s).mp hinv
  exact (inv_iff _).mpr ⟨hwf, hu, hb⟩

/-- Running to Idle keeps the invariant, since each step does. -/
theorem inv_runToIdle (n : Nat) {s t : State} (hinv : s.inv = true)
    (h : runToIdle step n s = .next t) : t.inv = true := by
  induction n generalizing s with
  | zero => cases h; exact hinv
  | succ n ih =>
    cases hrun : s.run with
    | idle =>
      rw [runToIdle_idle _ _ _ hrun] at h
      cases h
      exact hinv
    | running =>
      obtain ⟨u, hstep⟩ := everyStepAnswersANextState s
      rw [runToIdle_running _ _ _ _ hrun hstep] at h
      exact ih (stepKeepsTheInvariant s u hinv hstep) h

/-- An execute call keeps the invariant. -/
theorem inv_execute {budget : Byte} {s t : State} (hinv : s.inv = true) (h : execute budget s = .next t) :
    t.inv = true := by
  obtain ⟨hwf, hu, -⟩ := (inv_iff s).mp hinv
  have hbegin : (beginExecute budget s).inv = true :=
    (inv_iff _).mpr ⟨hwf, hu, budgetOk_beginExecute budget s⟩
  exact inv_runToIdle _ hbegin h

/-- Settles O16: only an Idle device moves; its operations write memory in canonical form, P through the flag
helpers, registers the invariant does not name, or make a whole call. -/
theorem hostOperationsKeepTheInvariant : Obligations.HostOperationsKeepTheInvariant := by
  intro op d d' v h
  cases hrun : d.core.run with
  | running => rw [hostOp_running hrun] at h; cases h
  | idle =>
    cases op with
    | reset start =>
      rw [hostOp_reset hrun] at h
      cases h
      exact ⟨fun _ => inv_resetAt _, fun _ _ => inv_resetAt _⟩
    | read a =>
      rw [hostOp_read hrun] at h
      cases h
      exact ⟨id, nofun⟩
    | write a v =>
      rw [hostOp_write hrun] at h
      cases h
      refine ⟨fun hinv => ?_, nofun⟩
      obtain ⟨hwf, hu, hb⟩ := (inv_iff _).mp hinv
      exact (inv_iff _).mpr ⟨wf_memWrite _ _ _ _ hwf, hu, hb⟩
    | execute budget =>
      cases hreset : d.resetDone with
      | false => rw [hostOp_execute_refused hrun hreset] at h; cases h
      | true =>
        obtain ⟨t, ht, -⟩ := executeEndsIdleWithItsOvershoot budget d.core
        rw [hostOp_execute hrun hreset ht] at h
        cases h
        exact ⟨fun hinv => inv_execute hinv ht, nofun⟩
    | readFlag f =>
      rw [hostOp_readFlag hrun] at h
      cases h
      exact ⟨id, nofun⟩
    | setFlag f b =>
      rw [hostOp_setFlag hrun] at h
      cases h
      exact ⟨fun hinv => inv_with_p hinv (by simp), nofun⟩
    | toggleFlag f =>
      rw [hostOp_toggleFlag hrun] at h
      cases h
      exact ⟨fun hinv => inv_with_p hinv (by simp), nofun⟩
    | getReg r =>
      rw [hostOp_getReg hrun] at h
      cases h
      exact ⟨id, nofun⟩
    | setReg w =>
      rw [hostOp_setReg hrun] at h
      cases h
      exact ⟨fun hinv => (setReg_frame w d.core).1.trans hinv, nofun⟩

/-- Settles O58: the write is a Bus write, which the reads see there and only there. -/
theorem hostReadsBackItsWrite : Obligations.HostReadsBackItsWrite := by
  intro d a b v hidle
  refine ⟨_, hostOp_write hidle a v, hidle, (hostOp_read (by exact hidle) a).trans ?_,
    fun hne => (hostOp_read (by exact hidle) b).trans ?_,
    fun r => (hostOp_getReg (by exact hidle) r).trans ?_⟩
  · rw [byteAt_eq, memWrite_mem, busRead_busWrite_same rfl]
  · rw [byteAt_eq, memWrite_mem, busRead_busWrite_other hne, byteAt_eq]
  · cases r <;> rfl

/-- A flag write stores U as 1, so that reading P gives the byte stored (10_state.md R29, R32). -/
theorem putFlag_u_or_flagMask (p : Byte) : putFlag .u true p ||| flagMask .u = putFlag .u true p := by
  simp [putFlag, BitVec.or_assoc]

/-- The flag read after `set_flag` (70_reset_and_hazards.md R158). -/
theorem readFlag_with_setFlag (f g : Flag) (b : Bool) (s : State) :
    readFlag g { s with p := setFlag f b s.p } =
      if g = .u then true else if g = f then b else readFlag g s := by
  rw [readFlag_eq, readFlag_eq]
  simp +contextual

/-- The flag read after `toggle_flag` (70_reset_and_hazards.md R158). -/
theorem readFlag_with_toggleFlag (f g : Flag) (s : State) :
    readFlag g { s with p := toggleFlag f s.p } =
      if g = .u then true else if g = f then !readFlag g s else readFlag g s := by
  rw [readFlag_eq, readFlag_eq]
  by_cases hu : g = .u
  · simp [hu]
  · by_cases hf : g = f
    · subst hf
      simp [hu]
    · simp [hu, hf]

/-- Settles O59: each operation by its rule; the flag read after a flag write by the helpers' laws. -/
theorem hostSetsRegistersAndFlags : Obligations.HostSetsRegistersAndFlags := by
  intro d v w f g b hidle
  refine ⟨⟨hostOp_getReg hidle _, hostOp_getReg hidle _, hostOp_getReg hidle _, hostOp_getReg hidle _,
      hostOp_getReg hidle _, hostOp_getReg hidle _⟩,
    ⟨_, hostOp_setReg hidle _, rfl, hostOp_getReg (by exact hidle) _⟩,
    ⟨_, hostOp_setReg hidle _, rfl, hostOp_getReg (by exact hidle) _⟩,
    ⟨_, hostOp_setReg hidle _, rfl, hostOp_getReg (by exact hidle) _⟩,
    ⟨_, hostOp_setReg hidle _, rfl, hostOp_getReg (by exact hidle) _⟩,
    ⟨_, hostOp_setReg hidle _, rfl, hostOp_getReg (by exact hidle) _⟩,
    ⟨_, hostOp_setFlag hidle f b, (hostOp_readFlag (by exact hidle) g).trans ?_,
      (hostOp_getReg (by exact hidle) .p).trans ?_⟩,
    ⟨_, hostOp_toggleFlag hidle f, (hostOp_readFlag (by exact hidle) g).trans ?_,
      (hostOp_getReg (by exact hidle) .p).trans ?_⟩⟩
  · rw [readFlag_with_setFlag]
  · exact congrArg (fun p => Host.Outcome.next (_, HostValue.byte p)) (putFlag_u_or_flagMask _)
  · rw [readFlag_with_toggleFlag]
  · exact congrArg (fun p => Host.Outcome.next (_, HostValue.byte p)) (putFlag_u_or_flagMask _)

/-- Settles O60: the two refusals by their rules, and every other operation of an Idle device by its own. -/
theorem hostIsRefusedOnlyAsStated : Obligations.HostIsRefusedOnlyAsStated := by
  refine ⟨fun op d hrun => hostOp_running hrun op,
    fun n d hidle hreset => hostOp_execute_refused hidle hreset n, fun op d hidle hallowed => ?_⟩
  cases op with
  | reset start => exact ⟨_, _, hostOp_reset hidle start, rfl, by simp, nofun⟩
  | read a => exact ⟨_, _, hostOp_read hidle a, hidle, by simp, nofun⟩
  | write a v => exact ⟨_, _, hostOp_write hidle a v, hidle, by simp, nofun⟩
  | execute budget =>
    have hreset : d.resetDone = true := hallowed.resolve_right fun h => h budget rfl
    obtain ⟨t, ht, htidle, -⟩ := executeEndsIdleWithItsOvershoot budget d.core
    refine ⟨_, _, hostOp_execute hidle hreset ht, htidle, by simp, fun n hn => ?_⟩
    cases hn
    exact ⟨ht, rfl⟩
  | readFlag f => exact ⟨_, _, hostOp_readFlag hidle f, hidle, by simp, nofun⟩
  | setFlag f b => exact ⟨_, _, hostOp_setFlag hidle f b, hidle, by simp, nofun⟩
  | toggleFlag f => exact ⟨_, _, hostOp_toggleFlag hidle f, hidle, by simp, nofun⟩
  | getReg r => exact ⟨_, _, hostOp_getReg hidle r, hidle, by simp, nofun⟩
  | setReg w => exact ⟨_, _, hostOp_setReg hidle w, (setReg_frame w _).2.trans hidle, by simp, nofun⟩

end Sys2Proof.Machine
end

section
/-! SUPPORT. What each instruction does, one lemma per shape of effect (42_load_store.md, 43_alu.md,
44_branch.md, 45_system.md). -/

namespace Sys2Proof.Machine

open Claims

/-- A flag other than U reads as it is stored (10_state.md R29). -/
theorem readFlag_of_ne_u {f : Flag} (hu : f ≠ .u) (s : State) : readFlag f s = storedFlag f s.p := by
  rw [readFlag_eq, if_neg hu]

/-- Flags outside a list read as before when their stored bits are kept. -/
theorem flagsSameExcept_of_storedFlag {l : List Flag} {s t : State}
    (h : ∀ f, f ∉ l → f ≠ .u → storedFlag f t.p = storedFlag f s.p) : flagsSameExcept l s t :=
  fun f hf => readFlag_congr (h f hf)

/-- Z and N after a write of P that gives them from `v` are those of `v` (42_load_store.md R93). -/
theorem znOf_of_storedFlag {v : Byte} {t : State} (hz : storedFlag .z t.p = (v == 0x00))
    (hn : storedFlag .n t.p = bit7 v) : znOf v t :=
  ⟨by rw [readFlag_of_ne_u (by decide), hz, eqZero_eq], by rw [readFlag_of_ne_u (by decide), hn, bit7_eq]⟩

/-- An instruction that puts `v` in A and its Z and N in P (42_load_store.md R93, 43_alu.md R110). -/
theorem setsA_of_exec {i : Instr} {s : State} {v : Byte} {n : Nat}
    (h : exec i s = .next (charge n { s with a := v, p := setZN v s.p })) : setsA i s v n := by
  exact ⟨_, h, rfl, znOf_of_storedFlag (by simp) (by simp), by simp,
    flagsSameExcept_of_storedFlag fun f hf hu => by simp_all, ⟨rfl, rfl, rfl, rfl, rfl⟩, rfl,
    fun _ => rfl⟩

/-- Settles O41: A takes the operand. -/
theorem ldaImmediateLoads : Obligations.LdaImmediateLoads :=
  fun v s => setsA_of_exec (exec_ldaImm s v)

/-- Settles O42: each mode loads the byte at its address. -/
theorem ldaMemoryLoads : Obligations.LdaMemoryLoads :=
  fun z w s => ⟨setsA_of_exec (exec_ldaZp s z), setsA_of_exec (exec_ldaZpx s z),
    setsA_of_exec (exec_ldaAbs s w), setsA_of_exec (exec_ldaAbsx s w), setsA_of_exec (exec_ldaAbsy s w),
    setsA_of_exec (exec_ldaIndx s z), setsA_of_exec (exec_ldaIndy s z)⟩

/-- Settles O46: A takes the masked operand. -/
theorem andImmediateMasks : Obligations.AndImmediateMasks :=
  fun v s => setsA_of_exec (exec_andImm s v)

/-- Settles O47: each mode masks A with the byte at its address. -/
theorem andMemoryMasks : Obligations.AndMemoryMasks :=
  fun z w s => ⟨setsA_of_exec (exec_andZp s z), setsA_of_exec (exec_andZpx s z),
    setsA_of_exec (exec_andAbs s w), setsA_of_exec (exec_andAbsx s w), setsA_of_exec (exec_andAbsy s w),
    setsA_of_exec (exec_andIndx s z), setsA_of_exec (exec_andIndy s z)⟩

/-- After a processor write the byte at its address is the one written (20_memory.md R38). -/
theorem byteAt_memWrite_same (a : Addr) (v : Byte) (s : State) :
    byteAt (memWrite Config.default a v s) a = v :=
  busRead_busWrite_same (default_mapped a) s.mem v

/-- A processor write changes no byte but one (20_memory.md R38). -/
theorem memSameExcept_memWrite (a : Addr) (v : Byte) (s : State) :
    memSameExcept [a] s (memWrite Config.default a v s) :=
  fun _ hb => busRead_busWrite_other (List.ne_of_not_mem_cons hb) Config.default s.mem v

/-- An instruction that writes A to its address (42_load_store.md R93). -/
theorem storesA_of_exec {i : Instr} {s : State} {r : Resolved} {n : Nat}
    (h : exec i s = .next (charge (n + r.crossed.toNat) (memWrite Config.default r.addr s.a s))) :
    storesA i s r n :=
  ⟨_, h, byteAt_memWrite_same r.addr s.a s, memSameExcept_memWrite r.addr s.a s, rfl, rfl,
    ⟨rfl, rfl, rfl, rfl, rfl⟩, rfl⟩

/-- Settles O43: each mode writes A to its address; only the indexed 16-bit modes can cross. -/
theorem staStores : Obligations.StaStores :=
  fun z w s => ⟨storesA_of_exec (exec_staZp s z), storesA_of_exec (exec_staZpx s z),
    storesA_of_exec (exec_staAbs s w), storesA_of_exec (exec_staAbsx s w), storesA_of_exec (exec_staAbsy s w),
    storesA_of_exec (exec_staIndx s z), storesA_of_exec (exec_staIndy s z)⟩

/-- A fetch reads the byte that was stored (20_memory.md §6). -/
theorem storesA_is_fetched {i : Instr} {s : State} {r : Resolved} {n : Nat} (h : storesA i s r n) :
    storeIsFetchedAt i s r.addr := by
  obtain ⟨t, hexec, hbyte, -⟩ := h
  exact ⟨t, hexec, hbyte⟩

/-- Settles O10: a fetch reads the memory that the store wrote. -/
theorem storeIsSeenByFetch : Obligations.StoreIsSeenByFetch := by
  intro z w s
  obtain ⟨hzp, hzpx, habs, habsx, habsy, hindx, hindy⟩ := staStores z w s
  exact ⟨storesA_is_fetched hzp, storesA_is_fetched hzpx, storesA_is_fetched habs, storesA_is_fetched habsx,
    storesA_is_fetched habsy, storesA_is_fetched hindx, storesA_is_fetched hindy⟩

/-- Settles O44: A by the exact sum, each flag by its law, and the rest as before. -/
theorem adcAddsWithCarry : Obligations.AdcAddsWithCarry := by
  intro v s
  refine ⟨_, exec_adcImm s v, adcResult_toNat _ _ _, ?_, znOf_of_storedFlag (by simp) (by simp), ?_, ?_,
    by simp, flagsSameExcept_of_storedFlag fun f hf hu => by simp_all, ⟨rfl, rfl, rfl, rfl, rfl⟩, rfl,
    fun _ => rfl⟩
  · rw [readFlag_of_ne_u (by decide), charge_p, addWithCarry_p, storedFlag_adcFlags]
    rfl
  · rw [readFlag_of_ne_u (by decide), Bool.eq_iff_iff, decide_eq_true_iff]
    simp [adcOverflow]
  · rw [readFlag_of_ne_u (by decide)]
    simpa using adcOverflow_iff s.a v (adcResult s.a v (readFlag .c s))

/-- Bit 7 of a byte is its sign. -/
theorem getLsbD_seven_eq (v : Byte) : v.getLsbD 7 = decide (128 ≤ v.toNat) := bit7_eq v

/-- The signed value of a byte (two's complement). -/
theorem byte_toInt (v : Byte) : v.toInt = if 128 ≤ v.toNat then (v.toNat : Int) - 256 else v.toNat := by
  rw [BitVec.toInt_eq_toNat_cond]
  split <;> split <;> omega

/-- Settles O45: with equal signs the sum overflows exactly when its low byte has the other sign, and with
different signs it always fits. -/
theorem adcOverflowIsSignedOverflow : Obligations.AdcOverflowIsSignedOverflow := by
  intro v s t h
  obtain ⟨u, hexec, hsum, -, -, -, hv, -⟩ := adcAddsWithCarry v s
  cases hexec.symm.trans h
  have hcarry := (readFlag .c s).toNat_le
  rw [hv, getLsbD_seven_eq, getLsbD_seven_eq, getLsbD_seven_eq, hsum, byte_toInt, byte_toInt]
  simp only [decide_eq_decide, ne_eq]
  split <;> split <;> omega

/-- Settles O48: the double of A by its number, and C by the bit that leaves. -/
theorem aslAccumulatorDoubles : Obligations.AslAccumulatorDoubles := by
  intro s
  refine ⟨_, exec_aslAcc s, aslResult_toNat s.a, ?_, ?_, znOf_of_storedFlag (by simp) (by simp), by simp,
    flagsSameExcept_of_storedFlag fun f hf hu => by simp_all, ⟨rfl, rfl, rfl, rfl, rfl⟩, rfl,
    fun _ => rfl⟩
  · rw [readFlag_of_ne_u (by decide), getLsbD_seven_eq]
    simp [aslCarry_eq]
    omega
  · show (aslResult s.a).toNat.testBit 0 = false
    rw [aslResult_toNat, Nat.testBit_zero]
    simp

/-- An instruction that doubles the byte at its address (43_alu.md R118, R119). -/
theorem doublesAt_of_exec {i : Instr} {s : State} {ea : Addr} {n : Nat}
    (h : exec i s = .next (charge n { memWrite Config.default ea (aslResult (byteAt s ea)) s with
      p := aslFlags (byteAt s ea) s.p })) : doublesAt i s ea n := by
  have hbyte : byteAt (charge n { memWrite Config.default ea (aslResult (byteAt s ea)) s with
      p := aslFlags (byteAt s ea) s.p }) ea = aslResult (byteAt s ea) := byteAt_memWrite_same ea _ s
  refine ⟨_, h, by rw [hbyte, aslResult_toNat], ?_, ?_, by simp,
    flagsSameExcept_of_storedFlag fun f hf hu => by simp_all, memSameExcept_memWrite ea _ s, rfl,
    ⟨rfl, rfl, rfl, rfl, rfl⟩, rfl⟩
  · rw [readFlag_of_ne_u (by decide), ← aslCarry_eq]
    simp
  · rw [hbyte]
    exact znOf_of_storedFlag (by simp) (by simp)

/-- Settles O49: each mode doubles the byte at its address. -/
theorem aslMemoryDoubles : Obligations.AslMemoryDoubles :=
  fun z w s => ⟨doublesAt_of_exec (exec_aslZp s z), doublesAt_of_exec (exec_aslZpx s z),
    doublesAt_of_exec (exec_aslAbs s w)⟩

/-- An instruction that tests the byte at its address (43_alu.md R122). -/
theorem testsBits_of_exec {i : Instr} {s : State} {ea : Addr} {n : Nat}
    (h : exec i s = .next (charge n { s with p := bitFlags s.a (byteAt s ea) s.p })) :
    testsBits i s ea n := by
  refine ⟨_, h, ?_, ?_, ?_, by simp, flagsSameExcept_of_storedFlag fun f hf hu => by simp_all, rfl,
    ⟨rfl, rfl, rfl, rfl, rfl⟩, rfl, fun _ => rfl⟩
  · rw [readFlag_of_ne_u (by decide), Bool.eq_iff_iff, decide_eq_true_iff]
    simp
  · rw [readFlag_of_ne_u (by decide)]
    simp [bit7]
  · rw [readFlag_of_ne_u (by decide)]
    simp [bit6]

/-- Settles O51: both modes test the byte at their address. -/
theorem bitTests : Obligations.BitTests :=
  fun z w s => ⟨testsBits_of_exec (exec_bitZp s z), testsBits_of_exec (exec_bitAbs s w)⟩

/-- The page-cross cycle in terms of pages (41_addressing.md R91). -/
theorem pageCross_toNat (base addr : Addr) :
    (pageCross base addr).toNat = if addr.toNat / 256 = base.toNat / 256 then 0 else 1 := by
  by_cases h : addr.toNat / 256 = base.toNat / 256
  · have hc : pageCross base addr = false := by
      rw [← Bool.not_eq_true, pageCrossComparesHighBytes]
      exact fun hne => hne h.symm
    rw [hc, if_pos h]
    rfl
  · rw [(pageCrossComparesHighBytes base addr).mpr (Ne.symm h), if_neg h]
    rfl

/-- An instruction that is `Branch(f, want)` (44_branch.md R126). -/
theorem branches_of_exec {i : Instr} {f : Flag} {want : Bool} {rel8 : Byte} {s : State}
    (h : exec i s = .next (if readFlag f s = want then
      charge (3 + (pageCross s.pc (relTarget rel8 s)).toNat) { s with pc := relTarget rel8 s }
      else charge 2 s)) : branches i f want rel8 s := by
  by_cases hf : readFlag f s = want
  · rw [if_pos hf] at h
    refine ⟨_, h, fun _ => ⟨relTarget_toNat rel8 s, ?_⟩, fun hne => absurd hf hne,
      rfl, rfl, rfl, rfl, rfl, rfl, fun _ => rfl⟩
    rw [charge_remaining, pageCross_toNat]
    simp only [charge_pc]
    split <;> omega
  · rw [if_neg hf] at h
    exact ⟨_, h, fun heq => absurd heq hf, fun _ => ⟨rfl, rfl⟩,
      rfl, rfl, rfl, rfl, rfl, rfl, fun _ => rfl⟩

/-- Settles O52: each branch tests its flag against its value. -/
theorem branchesTestOneFlag : Obligations.BranchesTestOneFlag :=
  fun r s => ⟨branches_of_exec (exec_bpl s r), branches_of_exec (exec_bmi s r),
    branches_of_exec (exec_bvc s r), branches_of_exec (exec_bvs s r), branches_of_exec (exec_bcc s r),
    branches_of_exec (exec_bcs s r), branches_of_exec (exec_bne s r), branches_of_exec (exec_beq s r)⟩

/-- ASL on a mapped address shifts the byte there and leaves every other byte (43_alu.md R118). -/
theorem shiftAt_spec {c : Config} {r : Resolved} (hmapped : c.mapped r.addr = true) (op : Byte) (s : State) :
    busRead c (shiftAt c op r s).mem r.addr = aslResult (busRead c s.mem r.addr) ∧
    ∀ b, b ≠ r.addr → busRead c (shiftAt c op r s).mem b = busRead c s.mem b :=
  ⟨busRead_busWrite_same hmapped _ _, fun _ hb => busRead_busWrite_other hb _ _ _⟩

/-- The byte ASL zp,X shifts, by the parameter (43_alu.md R120). -/
theorem eaAslZpx_addr (c : Config) (z : Byte) (s : State) :
    (eaAslZpx c z s).addr = if c.aslZpxUnindexed then zext16 z else zext16 (z + s.x) :=
  apply_ite Resolved.addr _ _ _

/-- No zero-page mode crosses a page (41_addressing.md R81). -/
theorem eaAslZpx_crossed (c : Config) (z : Byte) (s : State) : (eaAslZpx c z s).crossed = false := by
  unfold eaAslZpx
  split <;> rfl

/-- Settles O50: the mode's address is the one or the other byte, and the two differ because X is not 0. -/
theorem aslZpxParameterChoosesTheByte : Obligations.AslZpxParameterChoosesTheByte := by
  intro c z s hx hmapped
  obtain ⟨hused, hother⟩ := shiftAt_spec (hmapped (eaAslZpx c z s).addr) 0x16 s
  have hcost : (shiftAt c 0x16 (eaAslZpx c z s) s).remaining = s.remaining - c.baseCost 0x16 := by
    rw [shiftAt, charge_remaining, cost, eaAslZpx_crossed, Bool.and_false]
    rfl
  refine ⟨?_, ?_, hcost⟩
  · rw [← eaAslZpx_addr]
    exact hused
  · refine hother _ ?_
    rw [eaAslZpx_addr]
    cases c.aslZpxUnindexed <;> simpa [zext16_inj] using hx

/-- The three bytes BRK pushes (45_system.md R135). -/
theorem exec_brk_pushes {s t : State} (h : exec .brk s = .next t) :
    byteAt t (stackAddr s.sp) = hiByte (s.pc + 2) ∧
    byteAt t (stackAddr (s.sp - 1)) = loByte (s.pc + 2) ∧
    byteAt t (stackAddr (s.sp - 2)) = s.p ||| 0x30 := by
  have hp : setFlag .b true s.p = s.p ||| 0x30 := by
    simp [setFlag, putFlag, flagMask, flagIndex, BitVec.or_assoc]
  have hone : s.sp ≠ s.sp - 1#8 := by bv_omega
  have htwo : s.sp ≠ s.sp - 2#8 := by bv_omega
  have hgap : s.sp - 1#8 ≠ s.sp - 2#8 := by bv_omega
  rw [exec_brk] at h
  cases h
  simp [busRead_busWrite_default, stackAddr_inj, hp, hone, htwo, hgap]

/-- Settles O53: the pushed bytes, the frame of the stack page, the vector and the flag writes, each by its
lemma. -/
theorem breakEntersTheVector : Obligations.BreakEntersTheVector := by
  intro s
  have h := exec_brk s
  obtain ⟨hhi, hlo, hp⟩ := exec_brk_pushes h
  obtain ⟨hpc, hsp, hstatus, hrem⟩ := exec_brk_fields h
  obtain ⟨ha, hx, hy, hrun⟩ := exec_brk_frame h
  have hnext : (s.pc + 2).toNat = (s.pc.toNat + 2) % 65536 := BitVec.toNat_add s.pc 2
  rw [exec_brk_byteAt h fun sp => (vector_ne_stackAddr sp).1,
    exec_brk_byteAt h fun sp => (vector_ne_stackAddr sp).2] at hpc
  refine ⟨_, h, ?_, ?_, hp, (exec_effect h).memSameExcept, hsp, ?_, ?_, ?_, ?_,
    fun _ hf => (exec_effect h).readFlag_eq hf, ha, hx, hy, hrun, hrem⟩
  · rw [hhi, hiByte_toNat, hnext]
  · rw [hlo, loByte_toNat, hnext]
    omega
  · rw [hpc, wordOf_toNat]
  · rw [readFlag_of_ne_u (by decide), hstatus]
    simp
  · rw [readFlag_of_ne_u (by decide), hstatus]
    simp
  · rw [hstatus]
    simp

/-- A byte without a row at PC is fetched alone (30_encoding.md R62; D13). -/
theorem fetchInstr_unrecognised {s : State} (h : isRecognised (byteAt s s.pc) = false) :
    fetchInstr Config.default s = (.unrecognised (byteAt s s.pc), { s with pc := s.pc + 1 }) := by
  obtain ⟨hi, hf⟩ := instrOf_of_findRow_none ((findRow_eq_none_iff _).mpr h) 0 0
  have hop : formatOf (memRead Config.default s.pc s) = .op := hf
  rw [fetchInstr_eq, hop]
  exact congrArg (fun i => (i, ({ s with pc := s.pc + 1 } : State))) hi

/-- Settles O54: the arm lowers the budget by 1 and nothing else; the budget left keeps the core Running. -/
theorem unrecognisedOnlyAdvances : Obligations.UnrecognisedOnlyAdvances := by
  refine ⟨fun op s => exec_unrecognised s op, fun s hrun hrem hun => ?_⟩
  obtain ⟨t, hexec, hstep⟩ := step_running hrun (by omega)
  rw [fetchInstr_unrecognised hun, exec_unrecognised] at hexec
  cases hexec
  have hleft : (0 : Int) < s.remaining - 1 := by omega
  exact hstep.trans (congrArg Host.Outcome.next (settle_of_pos hleft))

end Sys2Proof.Machine
end

section
/-! SUPPORT. The record of the Bus transactions: what it lists, and that it replays (20_memory.md R41). -/

namespace Sys2Proof.Machine

/-- A recorded read replays on the memory it was recorded from. -/
theorem replay_readTx_cons (c : Config) (m : Memory) (a : Addr) (ts : List Transaction) :
    replay c (readTx c m a :: ts) m = replay c ts m := if_pos rfl

/-- A recorded write replays as a Bus write. -/
theorem replay_write_cons (c : Config) (m : Memory) (a : Addr) (v : Byte) (ts : List Transaction) :
    replay c (⟨.write, a, v⟩ :: ts) m = replay c ts (busWrite c m a v) := rfl

/-- A branch leaves the memory alone (44_branch.md R126). -/
theorem branch_mem (c : Config) (op : Byte) (f : Flag) (want : Bool) (rel8 : Byte) (s : State) :
    (branch c op f want rel8 s).mem = s.mem := by
  unfold branch
  split <;> rfl

/-- The fetches of `n` bytes read at PC and up (41_addressing.md R77). -/
theorem map_fetchTrace (c : Config) (m : Memory) (n : Nat) (a : Addr) :
    (fetchTrace c m n a).map (fun t => (t.dir, t.addr)) =
      (List.range n).map fun k => (Dir.read, a + BitVec.ofNat 16 k) := by
  induction n generalizing a with
  | zero => rfl
  | succ n ih =>
    have hshift (k : Nat) : a + 1#16 + BitVec.ofNat 16 k = a + BitVec.ofNat 16 (k + 1) := by
      rw [BitVec.add_assoc, Nat.add_comm k 1, BitVec.ofNat_add]
    rw [fetchTrace, List.map_cons, ih, List.range_succ_eq_map, List.map_cons, List.map_map]
    simp [readTx, hshift, Function.comp_def]

/-- The recorded accesses of an instruction are those its rule lists (20_memory.md R44; D14). -/
theorem map_execTrace (c : Config) (i : Instr) (s : State) :
    (execTrace c i s).map (fun t => (t.dir, t.addr)) = Claims.busAccesses c i s := by
  cases i
  case aslZpx z =>
    rw [Claims.busAccesses, ← eaAslZpx_addr]
    rfl
  all_goals rfl

/-- Settles O31: the accesses by their list, the writes by counting, and the fetches before them. -/
theorem busWritesPerInstruction : Obligations.BusWritesPerInstruction := by
  refine ⟨fun c i s => ⟨map_execTrace c i s, ?_⟩, fun c s => ?_⟩
  · cases i <;> rfl
  · rw [stepTrace, List.map_append, map_fetchTrace, map_execTrace]

/-- The trap entry leaves every byte outside the stack page, whatever is mapped (45_system.md R135). -/
theorem busRead_enterBreak {a : Addr} (h : ∀ sp, a ≠ stackAddr sp) (c : Config) (s : State) :
    busRead c (enterBreak c s).mem a = busRead c s.mem a := by
  rw [enterBreak_mem, busRead_busWrite_other (h _), busRead_busWrite_other (h _),
    busRead_busWrite_other (h _)]

/-- The record of an instruction replays to the memory it leaves (20_memory.md R41). -/
theorem replay_execTrace (c : Config) (i : Instr) (s : State) :
    replay c (execTrace c i s) s.mem = some (execWith c i s).mem := by
  cases i
  case ldaImm | adcImm | andImm | aslAcc | unrecognised => rfl
  case bpl | bmi | bvc | bvs | bcc | bcs | bne | beq => exact congrArg some (branch_mem _ _ _ _ _ s).symm
  case ldaZp | ldaZpx | ldaAbs | ldaAbsx | ldaAbsy | andZp | andZpx | andAbs | andAbsx | andAbsy
      | bitZp | bitAbs => exact replay_readTx_cons c s.mem _ []
  case ldaIndx | ldaIndy | andIndx | andIndy =>
    exact (replay_readTx_cons c s.mem _ _).trans
      ((replay_readTx_cons c s.mem _ _).trans (replay_readTx_cons c s.mem _ []))
  case staZp | staZpx | staAbs | staAbsx | staAbsy => rfl
  case staIndx | staIndy =>
    exact (replay_readTx_cons c s.mem _ _).trans (replay_readTx_cons c s.mem _ _)
  case aslZp | aslZpx | aslAbs => exact replay_readTx_cons c s.mem _ _
  case brk =>
    show replay c (breakTrace c s) s.mem = some (enterBreak c s).mem
    simp only [breakTrace, replay_write_cons, ← enterBreak_mem, replay_readTx_cons]
    rfl

/-- The memory `m` gives the bytes that the reads of a record gave over the memory of `s`. -/
def AgreesOn (c : Config) (s : State) (m : Memory) (l : List Transaction) : Prop :=
  ∀ tx ∈ l, tx.dir = .read → busRead c m tx.addr = busRead c s.mem tx.addr

/-- Two states that differ in the memory at most. -/
def SameButMem (t t' : State) : Prop := t' = { t with mem := t'.mem }

section Reads

variable {c : Config} {s : State} {m : Memory}

/-- Agreeing on two records in turn. -/
theorem agreesOn_append {l l' : List Transaction} :
    AgreesOn c s m (l ++ l') ↔ AgreesOn c s m l ∧ AgreesOn c s m l' :=
  List.forall_mem_append

/-- Agreeing on a record that begins with a read. -/
theorem agreesOn_readTx_cons {m' : Memory} {a : Addr} {l : List Transaction} :
    AgreesOn c s m (readTx c m' a :: l) ↔ busRead c m a = busRead c s.mem a ∧ AgreesOn c s m l := by
  simp [AgreesOn, readTx]

/-- The same read over two memories that agree at its address. -/
theorem readTx_congr {m' : Memory} {a : Addr} (h : busRead c m a = busRead c m' a) :
    readTx c m a = readTx c m' a := by
  rw [readTx, h, readTx]

/-- Equal bytes make equal words (00_scope.md R9). -/
theorem wordOf_congr {lo lo' hi hi' : Byte} (hlo : lo = lo') (hhi : hi = hi') :
    wordOf lo hi = wordOf lo' hi' := by
  rw [hlo, hhi]

/-- What a zero-page pointer gives depends on its two reads alone (41_addressing.md R92). -/
theorem pointer_congr {p : Byte} (h : AgreesOn c s m (pointerTrace c p s)) :
    readZPWord c p { s with mem := m } = readZPWord c p s ∧
    pointerTrace c p { s with mem := m } = pointerTrace c p s := by
  rw [pointerTrace, agreesOn_readTx_cons, agreesOn_readTx_cons] at h
  obtain ⟨hlo, hhi, -⟩ := h
  exact ⟨wordOf_congr hlo hhi, by simp only [pointerTrace, readTx, hlo, hhi]⟩

/-- A read of an address, as recorded (42_load_store.md R93). -/
def readAt (c : Config) (a : Addr) (t : State) : List Transaction := [readTx c t.mem a]

/-- A write of A at an address, as recorded (42_load_store.md R93). -/
def writeAt (a : Addr) (t : State) : List Transaction := [⟨.write, a, t.a⟩]

/-- The read and the write of ASL at an address, as recorded (43_alu.md R119). -/
def shiftTrace (c : Config) (a : Addr) (t : State) : List Transaction :=
  [readTx c t.mem a, ⟨.write, a, aslResult (busRead c t.mem a)⟩]

/-- An operation `F` at a resolved address, recorded as `T`, uses the memory through the reads of `T`
alone. -/
def UsesReads (c : Config) (s : State) (m : Memory) (F : Resolved → State → State)
    (T : Addr → State → List Transaction) : Prop :=
  ∀ r : Resolved, AgreesOn c s m (T r.addr s) →
    T r.addr { s with mem := m } = T r.addr s ∧ SameButMem (F r s) (F r { s with mem := m })

/-- An operation that depends on the memory through the byte at its address uses one recorded read. -/
theorem usesReads_readAt {F : Resolved → State → State}
    (hF : ∀ r : Resolved, busRead c m r.addr = busRead c s.mem r.addr →
      SameButMem (F r s) (F r { s with mem := m })) : UsesReads c s m F (readAt c) := by
  intro r h
  have hread := (agreesOn_readTx_cons.mp h).1
  exact ⟨congrArg (fun t => [t]) (readTx_congr hread), hF r hread⟩

/-- LDA reads its address (42_load_store.md R93). -/
theorem loadFrom_usesReads (op : Byte) : UsesReads c s m (loadFrom c op) (readAt c) :=
  usesReads_readAt fun _ hread => by
    simp only [SameButMem, loadFrom, memRead, hread]
    rfl

/-- AND reads its address (43_alu.md R110). -/
theorem andFrom_usesReads (op : Byte) : UsesReads c s m (andFrom c op) (readAt c) :=
  usesReads_readAt fun _ hread => by
    simp only [SameButMem, andFrom, memRead, hread]
    rfl

/-- BIT reads its address (43_alu.md R122). -/
theorem bitTestAt_usesReads (op : Byte) : UsesReads c s m (bitTestAt c op) (readAt c) :=
  usesReads_readAt fun _ hread => by
    simp only [SameButMem, bitTestAt, memRead, hread]
    rfl

/-- ASL reads its address before it writes it (43_alu.md R119). -/
theorem shiftAt_usesReads (op : Byte) : UsesReads c s m (shiftAt c op) (shiftTrace c) := by
  intro r h
  have hread := (agreesOn_readTx_cons.mp h).1
  refine ⟨?_, by simp only [SameButMem, shiftAt, memRead, hread]; rfl⟩
  simp only [shiftTrace, readTx, hread]

/-- STA reads nothing (42_load_store.md R93). -/
theorem storeTo_usesReads (op : Byte) : UsesReads c s m (storeTo c op) writeAt :=
  fun _ _ => ⟨rfl, rfl⟩

/-- Through a pointer the operation still uses the recorded reads alone: the pointer's two bytes, then its
own. -/
theorem UsesReads.indirect {F : Resolved → State → State} {T : Addr → State → List Transaction}
    (hF : UsesReads c s m F T) {p : Byte} (r : Addr → Resolved)
    (h : AgreesOn c s m (pointerTrace c p s ++ T (r (readZPWord c p s)).addr s)) :
    pointerTrace c p { s with mem := m } ++
        T (r (readZPWord c p { s with mem := m })).addr { s with mem := m } =
      pointerTrace c p s ++ T (r (readZPWord c p s)).addr s ∧
    SameButMem (F (r (readZPWord c p s)) s)
      (F (r (readZPWord c p { s with mem := m })) { s with mem := m }) := by
  obtain ⟨hp, ha⟩ := agreesOn_append.mp h
  obtain ⟨hword, htrace⟩ := pointer_congr hp
  obtain ⟨hown, hsame⟩ := hF _ ha
  rw [hword, htrace, hown]
  exact ⟨rfl, hsame⟩

/-- A branch reads no memory (44_branch.md R126). -/
theorem branch_sameButMem (c : Config) (op : Byte) (f : Flag) (want : Bool) (rel8 : Byte) (s : State)
    (m : Memory) :
    SameButMem (branch c op f want rel8 s) (branch c op f want rel8 { s with mem := m }) := by
  by_cases hf : readFlag f s = want
  · have hf' : readFlag f { s with mem := m } = want := hf
    simp only [SameButMem, branch, if_pos hf, if_pos hf']
    rfl
  · have hf' : ¬ readFlag f { s with mem := m } = want := hf
    simp only [SameButMem, branch, if_neg hf, if_neg hf']
    rfl

/-- BRK reads the vector alone (45_system.md R135). -/
theorem brk_usesReads (h : AgreesOn c s m (breakTrace c s)) :
    breakTrace c { s with mem := m } = breakTrace c s ∧
    SameButMem (brkWith c s) (brkWith c { s with mem := m }) := by
  have hvec {a : Addr} (ha : ∀ sp, a ≠ stackAddr sp)
      (hread : readTx c (enterBreak c s).mem a ∈ breakTrace c s) :
      busRead c (enterBreak c { s with mem := m }).mem a = busRead c (enterBreak c s).mem a := by
    rw [busRead_enterBreak ha, busRead_enterBreak ha]
    exact h _ hread rfl
  have hlo := hvec (fun sp => (vector_ne_stackAddr sp).1) (by simp [breakTrace])
  have hhi := hvec (fun sp => (vector_ne_stackAddr sp).2) (by simp [breakTrace])
  constructor
  · simp only [breakTrace, readTx, hlo, hhi]
  · apply state_ext
    case hpc => exact wordOf_congr hlo hhi
    all_goals simp [brkWith]

/-- An instruction uses the memory through its recorded reads alone (20_memory.md R41; D14). -/
theorem execWith_usesReads (i : Instr) (h : AgreesOn c s m (execTrace c i s)) :
    execTrace c i { s with mem := m } = execTrace c i s ∧
    SameButMem (execWith c i s) (execWith c i { s with mem := m }) := by
  cases i
  case ldaImm | adcImm | andImm | aslAcc | unrecognised =>
    exact ⟨by simp [execTrace, effectiveAddr], rfl⟩
  case bpl | bmi | bvc | bvs | bcc | bcs | bne | beq =>
    exact ⟨by simp [execTrace, effectiveAddr], branch_sameButMem _ _ _ _ _ s m⟩
  case brk => exact brk_usesReads h
  case ldaZp z => exact loadFrom_usesReads _ (eaZp z) h
  case ldaZpx z => exact loadFrom_usesReads _ (eaZpx z s) h
  case ldaAbs w => exact loadFrom_usesReads _ (eaAbs w) h
  case ldaAbsx w => exact loadFrom_usesReads _ (eaAbsx w s) h
  case ldaAbsy w => exact loadFrom_usesReads _ (eaAbsy w s) h
  case ldaIndx z => exact (loadFrom_usesReads _).indirect (p := z + s.x) (⟨·, false⟩) h
  case ldaIndy z => exact (loadFrom_usesReads _).indirect (indexed · s.y) h
  case andZp z => exact andFrom_usesReads _ (eaZp z) h
  case andZpx z => exact andFrom_usesReads _ (eaZpx z s) h
  case andAbs w => exact andFrom_usesReads _ (eaAbs w) h
  case andAbsx w => exact andFrom_usesReads _ (eaAbsx w s) h
  case andAbsy w => exact andFrom_usesReads _ (eaAbsy w s) h
  case andIndx z => exact (andFrom_usesReads _).indirect (p := z + s.x) (⟨·, false⟩) h
  case andIndy z => exact (andFrom_usesReads _).indirect (indexed · s.y) h
  case staZp z => exact storeTo_usesReads _ (eaZp z) h
  case staZpx z => exact storeTo_usesReads _ (eaZpx z s) h
  case staAbs w => exact storeTo_usesReads _ (eaAbs w) h
  case staAbsx w => exact storeTo_usesReads _ (eaAbsx w s) h
  case staAbsy w => exact storeTo_usesReads _ (eaAbsy w s) h
  case staIndx z => exact (storeTo_usesReads _).indirect (p := z + s.x) (⟨·, false⟩) h
  case staIndy z => exact (storeTo_usesReads _).indirect (indexed · s.y) h
  case aslZp z => exact shiftAt_usesReads _ (eaZp z) h
  case aslZpx z => exact shiftAt_usesReads _ (eaAslZpx c z s) h
  case aslAbs w => exact shiftAt_usesReads _ (eaAbs w) h
  case bitZp z => exact bitTestAt_usesReads _ (eaZp z) h
  case bitAbs w => exact bitTestAt_usesReads _ (eaAbs w) h

/-- Fetches over a memory that agrees on them are the same. -/
theorem fetchTrace_congr {n : Nat} {a : Addr} (h : AgreesOn c s m (fetchTrace c s.mem n a)) :
    fetchTrace c m n a = fetchTrace c s.mem n a := by
  induction n generalizing a with
  | zero => rfl
  | succ n ih =>
    obtain ⟨hread, hrest⟩ := agreesOn_readTx_cons.mp h
    rw [fetchTrace, fetchTrace, readTx_congr hread, ih hrest]

/-- How long the fetched instruction is, by its opcode byte (30_encoding.md R56). -/
theorem instrLength_fetchInstr (c : Config) (s : State) :
    instrLength (fetchInstr c s).1 = formatLength (formatOf (memRead c s.pc s)) := by
  rw [fetchInstr_eq]
  cases hf : formatOf (memRead c s.pc s) with
  | op | op8 | op16 => simp only [instrLength_instrOf, hf]

/-- The instruction fetched depends on its own bytes alone (30_encoding.md R56). -/
theorem fetchInstr_usesReads
    (h : AgreesOn c s m (fetchTrace c s.mem (instrLength (fetchInstr c s).1) s.pc)) :
    fetchInstr c { s with mem := m } = ((fetchInstr c s).1, { (fetchInstr c s).2 with mem := m }) := by
  rw [instrLength_fetchInstr] at h
  have hpos : ∃ n, formatLength (formatOf (memRead c s.pc s)) = n + 1 := by
    cases formatOf (memRead c s.pc s) <;> exact ⟨_, rfl⟩
  have hop : memRead c s.pc { s with mem := m } = memRead c s.pc s := by
    obtain ⟨n, hn⟩ := hpos
    rw [hn, fetchTrace, agreesOn_readTx_cons] at h
    exact h.1
  rw [fetchInstr_eq c s, fetchInstr_eq, hop]
  cases hf : formatOf (memRead c s.pc s) with
  | op => rfl
  | op8 =>
    rw [hf] at h
    simp only [formatLength, fetchTrace, agreesOn_readTx_cons] at h
    obtain ⟨-, h1, -⟩ := h
    simp only [memRead, h1]
  | op16 =>
    rw [hf] at h
    simp only [formatLength, fetchTrace, agreesOn_readTx_cons] at h
    obtain ⟨-, h1, h2, -⟩ := h
    simp only [memRead, h1, h2]

end Reads

/-- Settles O30: the fetches and the instruction's own accesses, each replayed and each used alone. -/
theorem busTransactionsReplayTheStep : Obligations.BusTransactionsReplayTheStep := by
  constructor
  · intro c s
    obtain ⟨hmem, -⟩ := fetchInstr_fields c s
    rw [stepTrace, replay_append, replay_fetchTrace, ← replay_execTrace, hmem]
    rfl
  · intro c s m h
    obtain ⟨hfetch, hexec⟩ := agreesOn_append.mp h
    have hmem := (fetchInstr_fields c s).1
    rw [AgreesOn, ← hmem] at hexec
    obtain ⟨htrace, hsame⟩ := execWith_usesReads _ hexec
    rw [stepTrace, stepTrace, fetchInstr_usesReads hfetch]
    exact ⟨congr (congrArg (· ++ ·) (fetchTrace_congr hfetch)) htrace, hsame⟩

end Sys2Proof.Machine
end
